-- ==== Sys2Proof/Word.lean ====
section
/-! DEFINITION. The value types of the block: levels, pin modes, command words, carrier bytes, pin identifiers. -/
namespace Sys2Proof

/-- The enumeration of a binary signal level (00_scope.md R11). -/
inductive LogicLevel where
  | low
  | high
  deriving DecidableEq, Repr

/-- The enumeration of a pin's direction, `PinMode` (00_scope.md R11). -/
inductive PinMode where
  | input
  | output
  deriving DecidableEq, Repr

/-- The 6-bit command word `c[5:0]` (30_encoding.md R60). -/
abbrev CommandWord := BitVec 6

/-- The 3-bit selector field `c[2:0]` (30_encoding.md R63). -/
abbrev Selector := BitVec 3

/-- One carrier unit of the command stream: "a carrier wider than 6 bits (a byte, say)" (30_encoding.md R60).
DESIGN CHOICE (log 4): one byte for each command. -/
abbrev Byte := BitVec 8

/-- A logical pin identifier, an integer of no stated width compared for equality only (00_scope.md R11). -/
abbrev PinNumber := Int

/-- A physical pin identifier, an integer of no stated width compared for equality only (00_scope.md R11). -/
abbrev PhysPin := Int

end Sys2Proof
end

