-- ==== Sys2Proof/Syntax.lean ====
section
/-! DEFINITION. The commands: one constructor for each row of spec/opcode_table.json. -/
namespace Sys2Proof

/-- A command of the block, in the order of the opcode table (30_encoding.md R65). -/
inductive Instr where
  /-- `DATA v` (40_data_oe.md R80). -/
  | data (v : LogicLevel)
  /-- `LATCH.L` (41_latch.md R85). -/
  | latchL
  /-- `LATCH.H` (41_latch.md R86). -/
  | latchH
  /-- `CLK.L` (42_clock.md R90). -/
  | clkL
  /-- `CLK.H` (42_clock.md R91). -/
  | clkH
  /-- `OE v` (40_data_oe.md R82). -/
  | oe (v : LogicLevel)
  /-- `DATAA v` (40_data_oe.md R81). -/
  | dataa (v : LogicLevel)
  /-- `WRX 5, v` (43_other_read_mode.md R95), the table's row with `sel = 5`. -/
  | wrxFive (v : LogicLevel)
  /-- `WRX 6, v` and `WRX 7, v` (43_other_read_mode.md R95), the table's row with `sel` 6 or 7. -/
  | wrxSixSeven (sel : Selector) (v : LogicLevel)
  /-- `READ s` (43_other_read_mode.md R96). The bit `v` of the word is ignored (30_encoding.md R68) and kept here so
  that every word has one instruction (log 22). -/
  | read (v : BitVec 1) (sel : Selector)
  /-- `MODE s, m` (43_other_read_mode.md R97). -/
  | mode (sel : Selector) (m : PinMode)
  /-- `RSVD`: a word with `op = 11` (43_other_read_mode.md R98), the whole word kept for the diagnostic. -/
  | rsvd (c : CommandWord)
  deriving DecidableEq, Repr

end Sys2Proof
end

