-- ==== Sys2Proof/WellFormed.lean ====
section
/-! DEFINITION. Which terms of `Instr` stand for a command word. -/
namespace Sys2Proof

/-- The checks the types do not make already: the second WRX row names selector 6 or 7 only (30_encoding.md R65), and a
reserved word has `c[5:4] = 11` (R66). -/
def Instr.wellFormed : Instr → Bool
  | .data _ => true
  | .latchL => true
  | .latchH => true
  | .clkL => true
  | .clkH => true
  | .oe _ => true
  | .dataa _ => true
  | .wrxFive _ => true
  | .wrxSixSeven sel _ => sel == 6#3 || sel == 7#3
  | .read _ _ => true
  | .mode _ _ => true
  | .rsvd c => c.extractLsb' 4 2 == 3#2

end Sys2Proof
end

