-- ==== Sys2Proof/Decode.lean ====
section
/-! DEFINITION. From carrier bytes to commands and back (30_encoding.md), with the opcode map as a table of rows. -/
namespace Sys2Proof

/-- `Low = 0`, `High = 1` (30_encoding.md R62). -/
def levelOfBit (b : BitVec 1) : LogicLevel := if b = 0#1 then .low else .high

/-- `Input = 0`, `Output = 1` (30_encoding.md R62). -/
def modeOfBit (b : BitVec 1) : PinMode := if b = 0#1 then .input else .output

/-- The field `op = c[5:4]` (30_encoding.md R60). -/
def opField (c : CommandWord) : BitVec 2 := c.extractLsb' 4 2

/-- The field `v = c[3]` (30_encoding.md R60). -/
def vField (c : CommandWord) : BitVec 1 := c.extractLsb' 3 1

/-- The field `sel = c[2:0]` (30_encoding.md R60). -/
def selField (c : CommandWord) : Selector := c.extractLsb' 0 3

/-- A write names its pin by the selector and, for LATCH and CLOCK, its instruction by the level too
(30_encoding.md R63, R65). -/
def decodeWrite (v : LogicLevel) (sel : Selector) : Instr :=
  match sel.toNat with
  | 0 => .data v
  | 1 => match v with
    | .low => .latchL
    | .high => .latchH
  | 2 => match v with
    | .low => .clkL
    | .high => .clkH
  | 3 => .oe v
  | 4 => .dataa v
  | 5 => .wrxFive v
  | _ => .wrxSixSeven sel v

/-- Every one of the 64 words is one command; decoding a word never fails (30_encoding.md R61, R65, R69). -/
def decodeWord (c : CommandWord) : Instr :=
  match (opField c).toNat with
  | 0 => decodeWrite (levelOfBit (vField c)) (selField c)
  | 1 => .read (vField c) (selField c)
  | 2 => .mode (selField c) (modeOfBit (vField c))
  | _ => .rsvd c

/-- Why a list of carrier bytes gives no command. -/
inductive DecodeError where
  /-- No byte is there. -/
  | noByte
  /-- A bit above bit 5 is set: "its upper bits must be zero" (30_encoding.md R60), "not a command word"
  (95_test_vectors.md V-E17). -/
  | carrierUpperBits
  deriving DecidableEq, Repr

/-- The command in one carrier byte (30_encoding.md R60). -/
def decodeCarrier (b : Byte) : Except DecodeError Instr :=
  if b.extractLsb' 6 2 = 0#2 then .ok (decodeWord (b.extractLsb' 0 6)) else .error .carrierUpperBits

/-- The first command of a stream of carrier bytes and the rest of the stream, total on any bytes: one length, no prefix
(30_encoding.md R70). -/
def decode : List Byte → Except DecodeError (Instr × List Byte)
  | [] => .error .noByte
  | b :: rest =>
    match decodeCarrier b with
    | .ok i => .ok (i, rest)
    | .error e => .error e

/-- The host's question: the command in the `nbits`-bit number `w`, bit 0 the least significant bit of the word. Bits of
`w` at or above `nbits` count as 0, and a command has no byte after its first. -/
def decodeTableWord (nbits w : Nat) : Option Instr :=
  match decode [BitVec.ofNat 8 (w % 2 ^ nbits)] with
  | .ok (i, _) => some i
  | .error _ => none

/-! The encoder, written from the words of 30_encoding.md R65 and R71. -/

/-- The bit of a level (30_encoding.md R62). -/
def bitOfLevel : LogicLevel → BitVec 1
  | .low => 0#1
  | .high => 1#1

/-- The bit of a pin mode (30_encoding.md R62). -/
def bitOfMode : PinMode → BitVec 1
  | .input => 0#1
  | .output => 1#1

/-- The one format `C`: `op ++ v ++ sel` (30_encoding.md R60). -/
def packWord (op : BitVec 2) (v : BitVec 1) (sel : Selector) : CommandWord := op ++ v ++ sel

/-- The word of a command (30_encoding.md R65, R71). -/
def encode : Instr → CommandWord
  | .data v => packWord 0b00#2 (bitOfLevel v) 0#3
  | .latchL => 0x01#6
  | .latchH => 0x09#6
  | .clkL => 0x02#6
  | .clkH => 0x0A#6
  | .oe v => packWord 0b00#2 (bitOfLevel v) 3#3
  | .dataa v => packWord 0b00#2 (bitOfLevel v) 4#3
  | .wrxFive v => packWord 0b00#2 (bitOfLevel v) 5#3
  | .wrxSixSeven sel v => packWord 0b00#2 (bitOfLevel v) sel
  | .read v sel => packWord 0b01#2 v sel
  | .mode sel m => packWord 0b10#2 (bitOfMode m) sel
  | .rsvd c => c

/-- The carrier byte of a command word: upper bits zero (30_encoding.md R60). -/
def carrierOfWord (c : CommandWord) : Byte := c.setWidth 8

/-- The carrier byte of a command. -/
def encodeCarrier (i : Instr) : Byte := carrierOfWord (encode i)

/-! The opcode map as the spec prints it. -/

/-- A row of the opcode map: a word `c` selects it "when `c & mask == match`" (30_encoding.md R65). -/
structure OpcodeRow where
  mnemonic : String
  mask : CommandWord
  pattern : CommandWord
  deriving DecidableEq, Repr

/-- The twelve rows of 30_encoding.md R65, in the order of spec/opcode_table.json. -/
def opcodeTable : List OpcodeRow :=
  [ ⟨"DATA", 0x37#6, 0x00#6⟩, ⟨"LATCH.L", 0x3F#6, 0x01#6⟩, ⟨"LATCH.H", 0x3F#6, 0x09#6⟩, ⟨"CLK.L", 0x3F#6, 0x02#6⟩,
    ⟨"CLK.H", 0x3F#6, 0x0A#6⟩, ⟨"OE", 0x37#6, 0x03#6⟩, ⟨"DATAA", 0x37#6, 0x04#6⟩, ⟨"WRX", 0x37#6, 0x05#6⟩,
    ⟨"WRX", 0x36#6, 0x06#6⟩, ⟨"READ", 0x30#6, 0x10#6⟩, ⟨"MODE", 0x30#6, 0x20#6⟩, ⟨"RSVD", 0x30#6, 0x30#6⟩ ]

/-- The rows a word selects. -/
def rowsOf (c : CommandWord) : List OpcodeRow := opcodeTable.filter fun r => c &&& r.mask == r.pattern

/-- The row of spec/opcode_table.json a command belongs to. -/
def Instr.row : Instr → OpcodeRow
  | .data _ => ⟨"DATA", 0x37#6, 0x00#6⟩
  | .latchL => ⟨"LATCH.L", 0x3F#6, 0x01#6⟩
  | .latchH => ⟨"LATCH.H", 0x3F#6, 0x09#6⟩
  | .clkL => ⟨"CLK.L", 0x3F#6, 0x02#6⟩
  | .clkH => ⟨"CLK.H", 0x3F#6, 0x0A#6⟩
  | .oe _ => ⟨"OE", 0x37#6, 0x03#6⟩
  | .dataa _ => ⟨"DATAA", 0x37#6, 0x04#6⟩
  | .wrxFive _ => ⟨"WRX", 0x37#6, 0x05#6⟩
  | .wrxSixSeven _ _ => ⟨"WRX", 0x36#6, 0x06#6⟩
  | .read _ _ => ⟨"READ", 0x30#6, 0x10#6⟩
  | .mode _ _ => ⟨"MODE", 0x30#6, 0x20#6⟩
  | .rsvd _ => ⟨"RSVD", 0x30#6, 0x30#6⟩

end Sys2Proof
end

