-- ==== Sys2Proof/Config.lean ====
section
/-! DEFINITION. The implementation parameters of 00_scope.md R7 to R10: what is fixed "at board-configuration time". -/
namespace Sys2Proof

/-- The five recognised pin identifiers, "pairwise distinct" (00_scope.md R9). The default values only show that the
type has a member; no rule and no definition of the model uses them. -/
structure PinIds where
  data : PinNumber := 0
  latch : PinNumber := 1
  clock : PinNumber := 2
  oe : PinNumber := 3
  dataAlt : PinNumber := 4
  distinct : [data, latch, clock, oe, dataAlt].Nodup := by decide
  deriving DecidableEq, Repr, Inhabited

/-- One board configuration (00_scope.md R10): `stationCount` is `N`, `pinMap` is `PhysicalPinMap` and its length is
`MAP_LEN`. The proof fields are the constraint `1 <= N <= MAP_LEN`, so a configuration outside it cannot be built
(93_implementation_defined.md U10, U9). The map is not assumed injective (R8). The defaults only show that the type has
a member. -/
structure Board where
  stationCount : Nat := 1
  pinMap : List PhysPin := [0]
  pins : PinIds := {}
  one_le_stationCount : 1 ≤ stationCount := by decide
  stationCount_le_mapLen : stationCount ≤ pinMap.length := by decide
  deriving DecidableEq, Repr, Inhabited

/-- `MAP_LEN`, "the length of the selected table" (00_scope.md R8). -/
def Board.mapLen (b : Board) : Nat := b.pinMap.length

/-- Why a configuration is refused (93_implementation_defined.md U9, U10). -/
inductive BoardError where
  /-- `N < 1`: the station count is a positive integer (R7). -/
  | noStations
  /-- `N > MAP_LEN`: the commit's look-up would not be defined (R7, D10). -/
  | moreStationsThanMapEntries
  /-- Two of the five pin identifiers coincide (R9, D3). -/
  | pinIdentifiersNotDistinct
  deriving DecidableEq, Repr

/-- Build a board from raw parameters, refusing by name what R9 and R10 exclude. -/
def boardOfParameters (n : Nat) (map : List PhysPin) (data latch clock oe dataAlt : PinNumber) :
    Except BoardError Board :=
  if h1 : 1 ≤ n then
    if h2 : n ≤ map.length then
      if h3 : [data, latch, clock, oe, dataAlt].Nodup then
        .ok { stationCount := n, pinMap := map, one_le_stationCount := h1, stationCount_le_mapLen := h2,
              pins := { data := data, latch := latch, clock := clock, oe := oe, dataAlt := dataAlt, distinct := h3 } }
      else .error .pinIdentifiersNotDistinct
    else .error .moreStationsThanMapEntries
  else .error .noStations

/-- The board of the machine that `State.reset` describes: `N`, `MAP_LEN`, the map and the identifiers are OPEN
(92_eei_decisions.md D3, D10). DESIGN CHOICE (log 2): an opaque constant with no body, so that no proof can see a value
of it and every claim about `State.reset` holds whatever the board is. -/
opaque Config.board : Board

end Sys2Proof
end

