-- ==== Sys2Proof/Machine/State.lean ====
section
/-! DEFINITION. The state of the block as plain data, its reset value, its field updates, and the reasons a step stops. -/
namespace Sys2Proof.Machine

/-- The diagnostics of 60_exceptions.md R101, names as codes (D15), with the `info` the word level has (log 15). -/
inductive Diagnostic where
  /-- A write to a pin that is none of the five; `info` is the selector (R102). -/
  | unrecognisedPin (sel : Selector)
  /-- A qualifying CLK.H at `cursor == -1`; no `info` (R103). -/
  | cursorOverrun
  /-- A word with `op = 11`; `info` is the 6-bit word (R104). -/
  | reservedCommand (c : CommandWord)
  deriving DecidableEq, Repr

/-- What the block emits, in the order it does (10_state.md R31; 60_exceptions.md R112). -/
inductive Event where
  /-- `PinDir(p, dir)`: one request to the backend to set a direction. -/
  | pinDir (p : PhysPin) (dir : PinMode)
  /-- `PinWrite(p, v)`: one level driven onto a physical pin. -/
  | pinWrite (p : PhysPin) (v : LogicLevel)
  /-- `Diag(code, info)`. -/
  | diag (d : Diagnostic)
  /-- `ReadResp(v)`: the value a `read` returns to the caller. -/
  | readResp (v : LogicLevel)
  deriving DecidableEq, Repr

/-- A shadow of the physical pin space: the pins written so far with what each was given, keys strictly rising. A pin
without an entry reads as `none` (10_state.md R32). -/
abbrev PinTable (α : Type) := List (PhysPin × α)

/-- The state: 10_state.md R20, "and nothing else", between the model's own fields `board` (log 1) and `pending`
(log 4). -/
structure State where
  /-- The parameters of 00_scope.md R10; no step changes them. -/
  board : Board
  /-- Last level written to DATA or to the alternate DATA pin (R20, R21). -/
  data : LogicLevel
  /-- Last level written to LATCH; the edge detector's memory (R20, R21). -/
  latch : LogicLevel
  /-- Last level written to CLOCK; written and never read (R20, R33). -/
  clock : LogicLevel
  /-- Last level written to OUTPUT_ENABLE (R20, R21). -/
  outputEnable : LogicLevel
  /-- The station the next capture fills, `-1` when the buffer is full (R24). -/
  cursor : Int
  /-- The N-station bit buffer, index 0 first (R22). -/
  stationState : List LogicLevel
  /-- Whether the once-only pin initialisation has been done (R27). -/
  initDone : Bool
  /-- Whether a capture was attempted at `cursor == -1` (R28). -/
  overrun : Bool
  /-- The last level written to each physical pin (R32). -/
  pinLevel : PinTable LogicLevel
  /-- The direction asked for each physical pin (R32). -/
  pinDir : PinTable PinMode
  /-- Everything emitted, oldest first (R31). -/
  trace : List Event
  /-- The carrier bytes of the commands the caller has still to present, next first (log 4). -/
  pending : List Byte
  deriving DecidableEq, Repr

/-- No command raises anything: "No command ever raises an exception, returns an error, transfers control, or stops the
command stream" (60_exceptions.md R100). So there is no fault, and nobody raises one. -/
inductive Fault where
  deriving DecidableEq, Repr

/-- Why a step refuses. -/
inductive Refusal where
  /-- Raised by `exec` for an instruction without a meaning yet; no arm does. Safe: the machine stops. -/
  | notModelled (mnemonic : String)
  /-- Raised by `step` for a carrier byte whose upper two bits are not zero, which is no command word
  (30_encoding.md R60). Safe: the machine stops (log 4). -/
  | notACommandWord (carrier : Byte)
  deriving DecidableEq, Repr

/-- The machine right after reset on a given board (10_state.md R34; the values are the spec's decision D7, log 3). -/
def State.resetFor (b : Board) : State where
  board := b
  data := .low
  latch := .low
  clock := .low
  outputEnable := .low
  cursor := (b.stationCount : Int) - 1
  stationState := List.replicate b.stationCount .low
  initDone := false
  overrun := false
  pinLevel := []
  pinDir := []
  trace := []
  pending := []

/-- The machine right after reset, on the board whose values are open (log 2). -/
def State.reset : State := State.resetFor Config.board

/-! One update for each field but `board`, which nothing updates. -/

def State.setData (s : State) (v : LogicLevel) : State := { s with data := v }
def State.setLatch (s : State) (v : LogicLevel) : State := { s with latch := v }
def State.setClock (s : State) (v : LogicLevel) : State := { s with clock := v }
def State.setOutputEnable (s : State) (v : LogicLevel) : State := { s with outputEnable := v }
def State.setCursor (s : State) (k : Int) : State := { s with cursor := k }
def State.setStationState (s : State) (x : List LogicLevel) : State := { s with stationState := x }
def State.setInitDone (s : State) (b : Bool) : State := { s with initDone := b }
def State.setOverrun (s : State) (b : Bool) : State := { s with overrun := b }
def State.setPinLevel (s : State) (t : PinTable LogicLevel) : State := { s with pinLevel := t }
def State.setPinDir (s : State) (t : PinTable PinMode) : State := { s with pinDir := t }
def State.setTrace (s : State) (tr : List Event) : State := { s with trace := tr }
def State.setPending (s : State) (bs : List Byte) : State := { s with pending := bs }

end Sys2Proof.Machine
end

