-- ==== Sys2Proof/Machine/Ops.lean ====
section
/-! DEFINITION. The pseudocode primitives of 00_scope.md R13 that emit something, and the pin tables they keep. -/
namespace Sys2Proof.Machine

/-- What a pin table holds for a pin; `none` if the block never wrote it (10_state.md R32). -/
def PinTable.read {α : Type} : PinTable α → PhysPin → Option α
  | [], _ => none
  | (q, v) :: rest, p => if p = q then some v else PinTable.read rest p

/-- One write to a pin table, in place and in key order. -/
def PinTable.write {α : Type} : PinTable α → PhysPin → α → PinTable α
  | [], p, v => [(p, v)]
  | (q, w) :: rest, p, v =>
    if p < q then (p, v) :: (q, w) :: rest
    else if p = q then (p, v) :: rest
    else (q, w) :: PinTable.write rest p v

/-- The canonical form of a pin table: keys strictly rising, so that equal tables are equal data. -/
abbrev PinTable.wf {α : Type} (t : PinTable α) : Prop := t.Pairwise fun a b => a.1 < b.1

/-- Append one event to the trace (10_state.md R31). -/
def State.emit (s : State) (e : Event) : State := s.setTrace (s.trace ++ [e])

/-- `MemWrite(p, 1, v)`: append `PinWrite(p, v)` and set `pinLevel[p] <- v` (00_scope.md R13). -/
def State.memWrite (s : State) (p : PhysPin) (v : LogicLevel) : State :=
  (s.emit (.pinWrite p v)).setPinLevel (s.pinLevel.write p v)

/-- `DirSet(p, Output)`: append `PinDir(p, Output)` and set `pinDir[p] <- Output` (00_scope.md R13). -/
def State.dirSetOutput (s : State) (p : PhysPin) : State :=
  (s.emit (.pinDir p .output)).setPinDir (s.pinDir.write p .output)

/-- `respond(v)`: the 1-bit value a `read` returns, recorded as `ReadResp(v)` (00_scope.md R13; log 7). -/
def State.respond (s : State) (v : LogicLevel) : State := s.emit (.readResp v)

/-- `diag <Code>(info)`: emit a diagnostic, change nothing else, do not stop (00_scope.md R13, 60_exceptions.md R101).
It stands where other hardware takes an exception; this block has no trap entry and no return (R108, R109). -/
def State.diag (s : State) (d : Diagnostic) : State := s.emit (.diag d)

/-- `for i = 0 .. n-1 ascending`: run the body for each index in that order, not at all when `n` is 0
(00_scope.md R13). -/
def forAscending (n : Nat) (body : State → Nat → State) (s : State) : State :=
  match n with
  | 0 => s
  | k + 1 => body (forAscending k body s) k

end Sys2Proof.Machine
end

