-- ==== Sys2Proof/Machine/Operands.lean ====
section
/-! DEFINITION. How commands reach their data: the station buffer through the cursor, the pin map by index, and the
one-bit negation (42_clock.md R93, 41_latch.md R89, 00_scope.md R11). -/
namespace Sys2Proof.Machine

/-- `not v`, the logical negation of a level (00_scope.md R11). -/
def negate : LogicLevel → LogicLevel
  | .low => .high
  | .high => .low

/-- `x[i]`: read one station (00_scope.md R13); `none` outside the buffer, which no well-formed state reaches (log 14). -/
def State.readStation (s : State) (i : Nat) : Option LogicLevel := s.stationState[i]?

/-- `x[i] <- v`: write one station, every other keeps its value (00_scope.md R13). The index "must satisfy
`0 <= i <= N-1`"; outside the buffer nothing is written, which no well-formed state reaches (log 14). -/
def State.writeStation (s : State) (i : Int) (v : LogicLevel) : State :=
  if 0 ≤ i then s.setStationState (s.stationState.set i.toNat v) else s

/-- `PhysicalPinMap[i]`, the block's only address translation (20_memory.md R52); `none` at or above `MAP_LEN`. -/
def State.physPin (s : State) (i : Nat) : Option PhysPin := s.board.pinMap[i]?

/-- `N - 1`, the cursor at the start of a shift sequence (20_memory.md R56). -/
def State.topStation (s : State) : Int := (s.board.stationCount : Int) - 1

/-- A write of High to CLOCK qualifies "while `latch == Low` and `outputEnable == Low`" (00_scope.md glossary). -/
def State.qualifies (s : State) : Bool := s.latch = .low ∧ s.outputEnable = .low

/-- The capture: store `data` at `cursor`, then decrement `cursor` (42_clock.md R91, R93). -/
def State.capture (s : State) : State :=
  (s.writeStation s.cursor s.data).setCursor (s.cursor - 1)

/-- One turn of the commit loop: drive the negation of station `i` onto its physical pin (41_latch.md R86, R89). -/
def State.driveStation (s : State) (i : Nat) : State :=
  match s.physPin i, s.readStation i with
  | some p, some v => s.memWrite p (negate v)
  | _, _ => s

/-- The commit: every station below `N` in ascending index (41_latch.md R86; D9, log 11). -/
def State.commit (s : State) : State := forAscending s.board.stationCount State.driveStation s

/-- One turn of the initialisation loop: ask for entry `i` of the map to be an output (43_other_read_mode.md R97). -/
def State.requestOutput (s : State) (i : Nat) : State :=
  match s.physPin i with
  | some p => s.dirSetOutput p
  | none => s

/-- The once-only initialisation's requests: all `MAP_LEN` entries in ascending index (43_other_read_mode.md R97). -/
def State.requestAllOutputs (s : State) : State := forAscending s.board.mapLen State.requestOutput s

end Sys2Proof.Machine
end

