-- ==== Sys2Proof/Machine/Flags.lean ====
section
/-! DEFINITION. The two 1-bit flags (10_state.md R27, R28). No flag is computed from a result (20_memory.md R56). -/
namespace Sys2Proof.Machine

/-- `initDone <- true`; nothing clears it (10_state.md R27). -/
def State.markInitDone (s : State) : State := s.setInitDone true

/-- `overrun <- true` with `diag CursorOverrun()`; never cleared except by reset (10_state.md R28; 42_clock.md R91). -/
def State.rejectExcess (s : State) : State := (s.setOverrun true).diag .cursorOverrun

end Sys2Proof.Machine
end

