-- ==== Sys2Proof/Machine/Clock.lean ====
section
/-! DEFINITION. The CLK commands (42_clock.md). -/
namespace Sys2Proof.Machine

/-- `CLK.L` (R90): `clock <- Low`. -/
def execClkL (s : State) : Host.Outcome State Fault Refusal := .next (s.setClock .low)

/-- What CLK.H does once `clock` is stored (R91, R92): nothing unless it qualifies; an overrun at `cursor == -1`
(D8, log 9); a capture otherwise, whatever `clock` was (D13, log 10). -/
def State.sample (s : State) : State :=
  if s.qualifies then
    if s.cursor = -1 then s.rejectExcess else s.capture
  else s

/-- `CLK.H` (R91): `clock <- High`, then sample. -/
def execClkH (s : State) : Host.Outcome State Fault Refusal := .next (s.setClock .high).sample

end Sys2Proof.Machine
end

