-- ==== Sys2Proof/Machine/DataOe.lean ====
section
/-! DEFINITION. The DATA, DATAA and OE commands (40_data_oe.md). -/
namespace Sys2Proof.Machine

/-- `DATA v` (R80): `data <- v`. -/
def execData (v : LogicLevel) (s : State) : Host.Outcome State Fault Refusal := .next (s.setData v)

/-- `DATAA v` (R81): `data <- v`, the one register DATA writes. -/
def execDataa (v : LogicLevel) (s : State) : Host.Outcome State Fault Refusal := .next (s.setData v)

/-- `OE v` (R82): `outputEnable <- v`. -/
def execOe (v : LogicLevel) (s : State) : Host.Outcome State Fault Refusal := .next (s.setOutputEnable v)

end Sys2Proof.Machine
end

