-- ==== Sys2Proof/Machine/Latch.lean ====
section
/-! DEFINITION. The LATCH commands (41_latch.md). -/
namespace Sys2Proof.Machine

/-- `LATCH.L` (R85): `latch <- Low; cursor <- N - 1`. -/
def execLatchL (s : State) : Host.Outcome State Fault Refusal :=
  .next ((s.setLatch .low).setCursor s.topStation)

/-- `LATCH.H` (R86): `prev <- latch; latch <- High; if prev == Low then commit` (conflict C1, D12; log 21). -/
def execLatchH (s : State) : Host.Outcome State Fault Refusal :=
  .next (if s.latch = .low then (s.setLatch .high).commit else s.setLatch .high)

end Sys2Proof.Machine
end

