-- ==== Sys2Proof/Machine/OtherReadMode.lean ====
section
/-! DEFINITION. WRX, READ, MODE and the reserved words (43_other_read_mode.md). -/
namespace Sys2Proof.Machine

/-- `WRX 5, v` (R95): `diag UnrecognisedPin(5)`; the level is discarded. -/
def execWrxFive (_v : LogicLevel) (s : State) : Host.Outcome State Fault Refusal :=
  .next (s.diag (.unrecognisedPin 5#3))

/-- `WRX 6, v` and `WRX 7, v` (R95): `diag UnrecognisedPin(s)`; the level is discarded. -/
def execWrxSixSeven (sel : Selector) (_v : LogicLevel) (s : State) : Host.Outcome State Fault Refusal :=
  .next (s.diag (.unrecognisedPin sel))

/-- `READ s` (R96): `respond(Low)`; neither operand has an effect (R68). -/
def execRead (_v : BitVec 1) (_sel : Selector) (s : State) : Host.Outcome State Fault Refusal :=
  .next (s.respond .low)

/-- `MODE s, m` (R97): the first one asks for every map entry to be an output and sets `initDone`; neither operand has
an effect (R68). -/
def execMode (_sel : Selector) (_m : PinMode) (s : State) : Host.Outcome State Fault Refusal :=
  .next (if s.initDone then s else s.requestAllOutputs.markInitDone)

/-- `RSVD` (R98): `diag ReservedCommand(c)` (D5, log 8). -/
def execRsvd (c : CommandWord) (s : State) : Host.Outcome State Fault Refusal :=
  .next (s.diag (.reservedCommand c))

end Sys2Proof.Machine
end

