-- ==== Sys2Proof/Machine/Dispatch.lean ====
section
/-! DEFINITION. One arm for each command. -/
namespace Sys2Proof.Machine

/-- What a command does to a state. -/
def exec (i : Instr) (s : State) : Host.Outcome State Fault Refusal :=
  match i with
  | .data v => Sys2Proof.Machine.execData v s
  | .latchL => Sys2Proof.Machine.execLatchL s
  | .latchH => Sys2Proof.Machine.execLatchH s
  | .clkL => Sys2Proof.Machine.execClkL s
  | .clkH => Sys2Proof.Machine.execClkH s
  | .oe v => Sys2Proof.Machine.execOe v s
  | .dataa v => Sys2Proof.Machine.execDataa v s
  | .wrxFive v => Sys2Proof.Machine.execWrxFive v s
  | .wrxSixSeven sel v => Sys2Proof.Machine.execWrxSixSeven sel v s
  | .read v sel => Sys2Proof.Machine.execRead v sel s
  | .mode sel m => Sys2Proof.Machine.execMode sel m s
  | .rsvd c => Sys2Proof.Machine.execRsvd c s

end Sys2Proof.Machine
end

