-- ==== Sys2Proof/Machine/Fetch.lean ====
section
/-! DEFINITION. Taking the next presented command off the command stream. -/
namespace Sys2Proof.Machine

/-- What the block finds when it looks for the next command. -/
inductive Fetched where
  /-- The caller presents nothing. -/
  | idle
  /-- A command, and the state in which its carrier byte is taken off the stream. -/
  | command (i : Instr) (s : State)
  /-- A carrier byte that is no command word. -/
  | notACommand (carrier : Byte)
  deriving DecidableEq, Repr

/-- The next command of `pending`: the block sees one command word at a time (30_encoding.md R60, R64, R70). -/
def State.fetch (s : State) : Fetched :=
  match s.pending with
  | [] => .idle
  | b :: _ =>
    match decode s.pending with
    | .ok (i, rest) => .command i (s.setPending rest)
    | .error _ => .notACommand b

end Sys2Proof.Machine
end

