-- ==== Sys2Proof/Machine/Step.lean ====
section
/-! DEFINITION. One step: the command the caller presents next, carried out whole (00_scope.md R14). -/
namespace Sys2Proof.Machine

/-- Take the next command and carry it out. With nothing presented the block "holds its state and does nothing"
(60_exceptions.md R114; log 5); a byte that is no command word is refused (log 4). -/
def step (s : State) : Host.Outcome State Fault Refusal :=
  match s.fetch with
  | .idle => .next s
  | .command i t => exec i t
  | .notACommand b => .refused (.notACommandWord b)

/-- The state in which the `nbits`-bit word `w` is the next the caller presents, standing for a load from outside the
machine (log 6). DESIGN CHOICE (log 23): the byte is put in front of the bytes already pending, which stay behind it in
their order; the spec has no such operation. -/
def State.withFetchWord (s : State) (nbits w : Nat) : State :=
  s.setPending (BitVec.ofNat 8 (w % 2 ^ nbits) :: s.pending)

end Sys2Proof.Machine
end

