-- ==== Sys2Proof/Machine/Assembler.lean ====
section
/-! DEFINITION. The assembler text and its pseudo-instructions (30_encoding.md R71, R72). A layer over the words: no
definition of the step uses it. -/
namespace Sys2Proof.Machine

/-- A line of assembler text that stands for commands: the mnemonics of R71, then the pseudo-instructions of R72. -/
inductive AsmLine where
  | data (v : LogicLevel)
  | latch (v : LogicLevel)
  | clk (v : LogicLevel)
  | oe (v : LogicLevel)
  | dataa (v : LogicLevel)
  | wrx (sel : Selector) (v : LogicLevel)
  | read (sel : Selector)
  | mode (sel : Selector) (m : PinMode)
  | word (w : CommandWord)
  | pulse
  | shift (v : LogicLevel)
  | beginSequence
  | commit
  | enable
  | disable
  | init
  | frame (bits : List LogicLevel)
  deriving DecidableEq, Repr

/-- `PULSE` is `CLK.L ; CLK.H` (R72). -/
def pulseCommands : List Instr := [.clkL, .clkH]

/-- `SHIFT v` is `DATA v ; CLK.L ; CLK.H` (R72). -/
def shiftCommands (v : LogicLevel) : List Instr := .data v :: pulseCommands

/-- `FRAME b` is `LATCH.L ; SHIFT b1 ; ... ; SHIFT bk ; LATCH.H` (R72). DESIGN CHOICE (log 24): with no bit, `k = 0`, on
which R72 is silent, the expansion is `LATCH.L ; LATCH.H`. -/
def frameCommands (bits : List LogicLevel) : List Instr :=
  .latchL :: (bits.flatMap shiftCommands ++ [.latchH])

/-- The words of a line: the command's word (R71), or the words of the pseudo-instruction's expansion (R72). The
canonical form of READ has `v = 0` (R68). -/
def wordsOfLine : AsmLine → List CommandWord
  | .data v => [encode (.data v)]
  | .latch .low => [encode .latchL]
  | .latch .high => [encode .latchH]
  | .clk .low => [encode .clkL]
  | .clk .high => [encode .clkH]
  | .oe v => [encode (.oe v)]
  | .dataa v => [encode (.dataa v)]
  | .wrx sel v => [packWord 0b00#2 (bitOfLevel v) sel]
  | .read sel => [encode (.read 0#1 sel)]
  | .mode sel m => [encode (.mode sel m)]
  | .word w => [w]
  | .pulse => pulseCommands.map encode
  | .shift v => (shiftCommands v).map encode
  | .beginSequence => [encode .latchL]
  | .commit => [encode .latchH]
  | .enable => [encode (.oe .low)]
  | .disable => [encode (.oe .high)]
  | .init => [encode (.mode 0#3 .output)]
  | .frame bits => (frameCommands bits).map encode

/-- The tokens of a line: `;` starts a comment, white space separates, a comma is a token of its own (log 19). -/
def tokensFrom (cur : List Char) : List Char → List String
  | [] => if cur.isEmpty then [] else [String.ofList cur.reverse]
  | c :: cs =>
    let flushed := if cur.isEmpty then [] else [String.ofList cur.reverse]
    if c = ';' then flushed
    else if c = ' ' ∨ c = '\t' ∨ c = '\r' then flushed ++ tokensFrom [] cs
    else if c = ',' then flushed ++ "," :: tokensFrom [] cs
    else tokensFrom (c :: cur) cs

/-- The value of a decimal digit. -/
def decimalDigit (c : Char) : Option Nat :=
  if 48 ≤ c.toNat ∧ c.toNat ≤ 57 then some (c.toNat - 48) else none

/-- The value of a hexadecimal digit, either case. -/
def hexDigit (c : Char) : Option Nat :=
  if 65 ≤ c.toNat ∧ c.toNat ≤ 70 then some (c.toNat - 55)
  else if 97 ≤ c.toNat ∧ c.toNat ≤ 102 then some (c.toNat - 87)
  else decimalDigit c

/-- A numeral in a base, after the digits read so far. -/
def numeralFrom (base : Nat) (digit : Char → Option Nat) (acc : Nat) : List Char → Option Nat
  | [] => some acc
  | c :: cs =>
    match digit c with
    | some d => numeralFrom base digit (base * acc + d) cs
    | none => none

/-- "operands are decimal" (R71): one or more digits. DESIGN CHOICE (log 19): leading zeros are accepted, so `DATA 01` is
`DATA 1` and `READ 007` is `READ 7`. -/
def decimalOperand (t : String) : Option Nat :=
  if t.toList.isEmpty then none else numeralFrom 10 decimalDigit 0 t.toList

/-- "`v` and `m` are `0` or `1`" (R71). -/
def bitOperand (t : String) : Option (BitVec 1) :=
  match decimalOperand t with
  | some 0 => some 0#1
  | some 1 => some 1#1
  | _ => none

/-- "`s` is `0` to `7`" (R71). -/
def selOperand (t : String) : Option Selector :=
  match decimalOperand t with
  | some n => if n < 8 then some (BitVec.ofNat 3 n) else none
  | none => none

/-- The operand of `.word`: `0x00` to `0x3F` (R71), the digits after `0x` at least one and leading
zeros accepted (log 19). -/
def wordOperand (t : String) : Option CommandWord :=
  match t.toList with
  | '0' :: 'x' :: d :: ds =>
    match numeralFrom 16 hexDigit 0 (d :: ds) with
    | some n => if n < 64 then some (BitVec.ofNat 6 n) else none
    | none => none
  | _ => none

/-- The operand of `FRAME`: "a string of `0` and `1` read left to right" (R72). A token has at least one character, so no
line of text gives the empty string (log 24). -/
def bitsOperand : List Char → Option (List LogicLevel)
  | [] => some []
  | c :: cs =>
    match bitsOperand cs with
    | some rest => if c = '0' then some (.low :: rest) else if c = '1' then some (.high :: rest) else none
    | none => none

/-- The lines whose mnemonic takes no operand (R71, R72), in the spelling of the tables, capitals as they stand there
(log 19). -/
def bareLine (m : String) : Option AsmLine :=
  if m = "LATCH.L" then some (.latch .low)
  else if m = "LATCH.H" then some (.latch .high)
  else if m = "CLK.L" then some (.clk .low)
  else if m = "CLK.H" then some (.clk .high)
  else if m = "PULSE" then some .pulse
  else if m = "BEGIN" then some .beginSequence
  else if m = "COMMIT" then some .commit
  else if m = "ENABLE" then some .enable
  else if m = "DISABLE" then some .disable
  else if m = "INIT" then some .init
  else none

/-- The lines whose mnemonic takes one operand, `LATCH v` and `CLK v` among them (R71, R72). -/
def oneOperandLine (m a : String) : Option AsmLine :=
  if m = "DATA" then (bitOperand a).map fun b => .data (levelOfBit b)
  else if m = "LATCH" then (bitOperand a).map fun b => .latch (levelOfBit b)
  else if m = "CLK" then (bitOperand a).map fun b => .clk (levelOfBit b)
  else if m = "OE" then (bitOperand a).map fun b => .oe (levelOfBit b)
  else if m = "DATAA" then (bitOperand a).map fun b => .dataa (levelOfBit b)
  else if m = "SHIFT" then (bitOperand a).map fun b => .shift (levelOfBit b)
  else if m = "READ" then (selOperand a).map .read
  else if m = ".word" then (wordOperand a).map .word
  else if m = "FRAME" then (bitsOperand a.toList).map .frame
  else none

/-- The lines whose mnemonic takes a selector and a bit; WRX takes selectors 5 to 7 only (R71). -/
def twoOperandLine (m a b : String) : Option AsmLine :=
  match selOperand a, bitOperand b with
  | some sel, some v =>
    if m = "WRX" then (if 5 ≤ sel.toNat then some (.wrx sel (levelOfBit v)) else none)
    else if m = "MODE" then some (.mode sel (modeOfBit v))
    else none
  | _, _ => none

/-- The words of one line of text: none for a blank or comment line (log 19), `none` for a line that is no command. A line
`FRAME` without an operand is refused (log 24). -/
def assembleLine (line : List Char) : Option (List CommandWord) :=
  match tokensFrom [] line with
  | [] => some []
  | [m] => (bareLine m).map wordsOfLine
  | [m, a] => (oneOperandLine m a).map wordsOfLine
  | [m, a, comma, b] => if comma = "," then (twoOperandLine m a b).map wordsOfLine else none
  | _ => none

/-- The lines of a text, "one command per line" (R71). -/
def linesFrom (cur : List Char) : List Char → List (List Char)
  | [] => [cur.reverse]
  | c :: cs => if c = '\n' then cur.reverse :: linesFrom [] cs else linesFrom (c :: cur) cs

/-- The words of a list of lines, in order. -/
def assembleLines : List (List Char) → Option (List CommandWord)
  | [] => some []
  | l :: ls =>
    match assembleLine l, assembleLines ls with
    | some ws, some rest => some (ws ++ rest)
    | _, _ => none

/-- The words of an assembler text (R71, R72); `none` for the whole text where one line is no command (log 19). -/
def assemble (text : String) : Option (List CommandWord) := assembleLines (linesFrom [] text.toList)

end Sys2Proof.Machine
end

