-- ==== Sys2Proof/Machine/Facade.lean ====
section
/-! DEFINITION. The caller's side: the three public operations and the words they turn into (00_scope.md R3;
30_encoding.md R64). -/
namespace Sys2Proof.Machine

/-- The block's complete command set as the caller sees it: "the three public operations, and no others exist"
(00_scope.md R3). -/
inductive Call where
  | write (pin : PinNumber) (value : LogicLevel)
  | read (pin : PinNumber)
  | setMode (pin : PinNumber) (mode : PinMode)
  deriving DecidableEq, Repr

/-- `sel_of(pin)` (30_encoding.md R64): 7 for every unrecognised pin. -/
def selOf (ids : PinIds) (pin : PinNumber) : Selector :=
  if pin = ids.data then 0#3
  else if pin = ids.latch then 1#3
  else if pin = ids.clock then 2#3
  else if pin = ids.oe then 3#3
  else if pin = ids.dataAlt then 4#3
  else 7#3

/-- The command word of a call (30_encoding.md R64). -/
def wordOfCall (ids : PinIds) : Call → CommandWord
  | .write pin value => packWord 0b00#2 (bitOfLevel value) (selOf ids pin)
  | .read pin => packWord 0b01#2 0#1 (selOf ids pin)
  | .setMode pin mode => packWord 0b10#2 (bitOfMode mode) (selOf ids pin)

/-- The caller presents words, one carrier byte each (30_encoding.md R60), after what it has presented already: commands
take effect "in the order the caller issues them" (20_memory.md R47). -/
def State.presentWords (s : State) (ws : List CommandWord) : State :=
  s.setPending (s.pending ++ ws.map carrierOfWord)

/-- The caller presents calls, which the façade turns into words (30_encoding.md R64). -/
def State.presentCalls (s : State) (calls : List Call) : State :=
  s.presentWords (calls.map (wordOfCall s.board.pins))

end Sys2Proof.Machine
end

