-- ==== Sys2Proof/Safety.lean ====
section
/-! DEFINITION. The vocabulary of claims: runs, well-formed states, when a run has gone wrong, and the premise
BACKEND_OK. No definition of the step uses this file. -/
namespace Sys2Proof.Machine

/-- Carry out a list of commands in order, each by its rule (70_reset_and_hazards.md R140). -/
def runCommands : List Instr → State → Host.Outcome State Fault Refusal
  | [], s => .next s
  | i :: is, s =>
    match exec i s with
    | .next t => runCommands is t
    | .fault f => .fault f
    | .refused r => .refused r

/-! The pin shadow as a function of the trace (10_state.md R32). -/

/-- The level an event writes to pin `p`, if it writes it. -/
def Event.levelFor (p : PhysPin) : Event → Option LogicLevel
  | .pinWrite q v => if q = p then some v else none
  | .pinDir _ _ => none
  | .diag _ => none
  | .readResp _ => none

/-- "the level of the last `PinWrite(p, v)` in `trace`, or `none` if there is no such event" (R32). -/
def lastLevel (tr : List Event) (p : PhysPin) : Option LogicLevel := (tr.filterMap (Event.levelFor p)).getLast?

/-- "`Output` if `trace` holds a `PinDir(p, Output)`, else `none`" (R32). -/
def dirAsked (tr : List Event) (p : PhysPin) : Option PinMode :=
  if Event.pinDir p .output ∈ tr then some .output else none

/-- A well-formed state (10_state.md R36, with the tables in canonical form). -/
structure State.WF (s : State) : Prop where
  neg_one_le_cursor : -1 ≤ s.cursor
  cursor_le_top : s.cursor ≤ (s.board.stationCount : Int) - 1
  stations_length : s.stationState.length = s.board.stationCount
  pinLevel_canonical : s.pinLevel.wf
  pinDir_canonical : s.pinDir.wf
  pinLevel_agrees : ∀ p, s.pinLevel.read p = lastLevel s.trace p
  pinDir_agrees : ∀ p, s.pinDir.read p = dirAsked s.trace p

/-- Is this event the diagnostic of a reserved word? -/
def Event.isReservedCommand : Event → Bool
  | .diag (.reservedCommand _) => true
  | .diag (.unrecognisedPin _) => false
  | .diag .cursorOverrun => false
  | .pinDir _ _ => false
  | .pinWrite _ _ => false
  | .readResp _ => false

/-- Is this event a diagnostic? -/
def Event.isDiag : Event → Bool
  | .diag _ => true
  | .pinDir _ _ => false
  | .pinWrite _ _ => false
  | .readResp _ => false

/-- Is this event a direction request? -/
def Event.isPinDir : Event → Bool
  | .pinDir _ _ => true
  | .diag _ => false
  | .pinWrite _ _ => false
  | .readResp _ => false

/-- Is this event a pin write? -/
def Event.isPinWrite : Event → Bool
  | .pinWrite _ _ => true
  | .diag _ => false
  | .pinDir _ _ => false
  | .readResp _ => false

/-- A run has gone wrong "when `overrun` is true at its end or `trace` holds a `Diag(ReservedCommand)`"
(70_reset_and_hazards.md R140). -/
def State.goneWrong (s : State) : Bool := s.overrun || s.trace.any Event.isReservedCommand

/-! The physical world (60_exceptions.md R112, R113; log 17). -/

/-- What can happen to the physical pins (DESIGN CHOICE, log 17). -/
inductive WorldEvent where
  /-- The backend handled an event of the block; `ok` says whether it took effect, which the block never learns. -/
  | issued (e : Event) (ok : Bool)
  /-- Something else drove a physical pin. -/
  | drivenByOther (p : PhysPin) (v : LogicLevel)
  deriving DecidableEq, Repr

/-- The events of the block among what happened, in order. -/
def issuedEvents (world : List WorldEvent) : List Event :=
  world.filterMap fun
    | .issued e _ => some e
    | .drivenByOther _ _ => none

/-- The level of every physical pin after what happened, starting from given levels: a write that succeeds sets its pin,
one that fails "leaves the pin in its previous state" (93_implementation_defined.md U5), another driver sets its pin.
DESIGN CHOICE (log 25): a direction request that succeeds leaves its pin's level as it was, also for a pin no commit has
written yet, whose level after MODE the spec leaves undefined (43_other_read_mode.md R97 (d), 70_reset_and_hazards.md
R121). -/
def realLevels (levels : PhysPin → LogicLevel) : List WorldEvent → PhysPin → LogicLevel
  | [] => levels
  | .issued e ok :: rest =>
    realLevels (fun p => if ok then (e.levelFor p).getD (levels p) else levels p) rest
  | .drivenByOther q v :: rest => realLevels (fun p => if q = p then v else levels p) rest

/-- "every `DirSet` and every `MemWrite` the block issues succeeds in the backend" (60_exceptions.md R113). -/
def EveryRequestSucceeds (world : List WorldEvent) : Prop :=
  ∀ e, .issued e false ∈ world → e.isPinDir = false ∧ e.isPinWrite = false

/-- "nothing else drives the mapped physical pins" (60_exceptions.md R113). -/
def NothingElseDrives (map : List PhysPin) (world : List WorldEvent) : Prop :=
  ∀ p v, .drivenByOther p v ∈ world → p ∉ map

/-- The premise `BACKEND_OK`, both its clauses (60_exceptions.md R113), for a board's map. -/
def BackendOk (map : List PhysPin) (world : List WorldEvent) : Prop :=
  EveryRequestSucceeds world ∧ NothingElseDrives map world

/-- Every pin the block has given a level is one of the first `N` entries of the map, the only ones a commit writes
(20_memory.md R43, 41_latch.md R86). -/
def State.DrivesMappedPinsOnly (s : State) : Prop :=
  ∀ p, s.pinLevel.read p ≠ none → p ∈ s.board.pinMap.take s.board.stationCount

/-! What a shift sequence samples (42_clock.md R94). -/

/-- The bits the qualifying CLK.H commands of a list sample while LATCH stays Low, given the levels of `data` and
`outputEnable` before it: "the value captured is `data` as it stands when CLK.H is executed" (42_clock.md R91 (h)). -/
def sampledBits : List Instr → LogicLevel → LogicLevel → List LogicLevel
  | [], _, _ => []
  | .data v :: is, _, oe => sampledBits is v oe
  | .dataa v :: is, _, oe => sampledBits is v oe
  | .oe v :: is, d, _ => sampledBits is d v
  | .clkH :: is, d, oe => if oe = .low then d :: sampledBits is d oe else sampledBits is d oe
  | .clkL :: is, d, oe => sampledBits is d oe
  | .latchL :: is, d, oe => sampledBits is d oe
  | .latchH :: is, d, oe => sampledBits is d oe
  | .wrxFive _ :: is, d, oe => sampledBits is d oe
  | .wrxSixSeven _ _ :: is, d, oe => sampledBits is d oe
  | .read _ _ :: is, d, oe => sampledBits is d oe
  | .mode _ _ :: is, d, oe => sampledBits is d oe
  | .rsvd _ :: is, d, oe => sampledBits is d oe

/-- The boot sequence (70_reset_and_hazards.md R122) for a pattern sent highest station first. -/
def bootCommands (sel : Selector) (m : PinMode) (bits : List LogicLevel) : List Instr :=
  .mode sel m :: .oe .low :: frameCommands bits

/-- The events of a commit of the buffer `x` through the map (41_latch.md R86): station `i` on pin `PhysicalPinMap[i]`
with its level negated, in ascending index. -/
def commitEvents (map : List PhysPin) (x : List LogicLevel) : List Event :=
  List.zipWith (fun p v => .pinWrite p (negate v)) map x

end Sys2Proof.Machine
end

