-- ==== Sys2Proof/Certificates/Slice0/Obligations.lean ====
section
/-! DEFINITION. The statements for the provers, from the spec's numbered rules. Each says its result as "exec answers
this next state", so that it is also the completion statement of the commands it names. -/

open Sys2Proof Sys2Proof.Machine

/-! ## Reset and well-formed states -/

/-- 10_state.md R34, every row, on every board; the values are the spec's own decision D7 (log 3). -/
def Obligations.ResetLeavesTheListedValues : Prop :=
  ∀ b : Board,
    (State.resetFor b).data = .low ∧ (State.resetFor b).latch = .low ∧ (State.resetFor b).clock = .low ∧
    (State.resetFor b).outputEnable = .low ∧
    (State.resetFor b).cursor = (b.stationCount : Int) - 1 ∧
    (State.resetFor b).stationState.length = b.stationCount ∧
    (∀ i, i < b.stationCount → (State.resetFor b).stationState[i]? = some .low) ∧
    (State.resetFor b).initDone = false ∧ (State.resetFor b).overrun = false ∧ (State.resetFor b).trace = [] ∧
    (∀ p, (State.resetFor b).pinLevel.read p = none ∧ (State.resetFor b).pinDir.read p = none)

/-- The model's own choices at reset: the machine the host reads starts in the spec's reset state on the open board
(log 2), with nothing presented (log 6). -/
def Obligations.MachineStartsInTheResetStateOfTheOpenBoard : Prop :=
  Sys2Proof.core.reset = State.resetFor Config.board ∧
  (∀ b : Board, (State.resetFor b).board = b ∧ (State.resetFor b).pending = [])

/-- 10_state.md section 9 (the rule the spec marks as derived): the reset state is well formed, on every board and with
any commands presented. -/
def Obligations.ResetStateIsWellFormed : Prop :=
  (∀ (b : Board) (bs : List Byte), ((State.resetFor b).setPending bs).WF) ∧ State.reset.WF

/-- 10_state.md section 9 (the rule the spec marks as derived): "every command keeps a well-formed state well formed",
for one step of the machine from every well-formed state. -/
def Obligations.EveryStepKeepsStatesWellFormed : Prop :=
  ∀ s t : State, s.WF → step s = .next t → t.WF

/-- 10_state.md section 4 (the cursor invariant, marked derived) and the length of the buffer, after any number of steps
from any well-formed state; the range rests on the spec's decision D8 (log 9). -/
def Obligations.CursorStaysInRangeAlongEveryRun : Prop :=
  ∀ (n : Nat) (s t : State), s.WF → Sys2Proof.core.run n s = .next t →
    -1 ≤ t.cursor ∧ t.cursor ≤ (t.board.stationCount : Int) - 1 ∧
    t.stationState.length = t.board.stationCount ∧ t.board = s.board

/-- 20_memory.md section 6: the map is immutable, "no command changes it, and it is the same for every look-up of a
run"; the model keeps it in `board` (log 1). -/
def Obligations.BoardIsTheSameAlongEveryRun : Prop :=
  ∀ (n : Nat) (s t : State), Sys2Proof.core.run n s = .next t → t.board = s.board

/-! ## Encoding and the step -/

/-- 30_encoding.md R65: every word selects exactly one row of the map, and decodes to that row's command with the
operands the row names. -/
def Obligations.EveryWordDecodesByExactlyOneRow : Prop :=
  (∀ c : CommandWord, rowsOf c = [(decodeWord c).row]) ∧
  (∀ c : CommandWord, c &&& 0x37#6 = 0x00#6 → decodeWord c = .data (levelOfBit (vField c))) ∧
  decodeWord 0x01#6 = .latchL ∧ decodeWord 0x09#6 = .latchH ∧
  decodeWord 0x02#6 = .clkL ∧ decodeWord 0x0A#6 = .clkH ∧
  (∀ c : CommandWord, c &&& 0x37#6 = 0x03#6 → decodeWord c = .oe (levelOfBit (vField c))) ∧
  (∀ c : CommandWord, c &&& 0x37#6 = 0x04#6 → decodeWord c = .dataa (levelOfBit (vField c))) ∧
  (∀ c : CommandWord, c &&& 0x37#6 = 0x05#6 → decodeWord c = .wrxFive (levelOfBit (vField c))) ∧
  (∀ c : CommandWord, c &&& 0x36#6 = 0x06#6 → decodeWord c = .wrxSixSeven (selField c) (levelOfBit (vField c))) ∧
  (∀ c : CommandWord, c &&& 0x30#6 = 0x10#6 → decodeWord c = .read (vField c) (selField c)) ∧
  (∀ c : CommandWord, c &&& 0x30#6 = 0x20#6 → decodeWord c = .mode (selField c) (modeOfBit (vField c))) ∧
  (∀ c : CommandWord, c &&& 0x30#6 = 0x30#6 → decodeWord c = .rsvd c)

/-- Words of 95_test_vectors.md (V-E1 to V-E16) decode to the commands the table there names. -/
def Obligations.SpecWordsDecodeToTheirCommands : Prop :=
  decodeWord 0b000000#6 = .data .low ∧ decodeWord 0b001000#6 = .data .high ∧
  decodeWord 0b000001#6 = .latchL ∧ decodeWord 0b001001#6 = .latchH ∧
  decodeWord 0b000010#6 = .clkL ∧ decodeWord 0b001010#6 = .clkH ∧
  decodeWord 0b001011#6 = .oe .high ∧ decodeWord 0b001100#6 = .dataa .high ∧
  decodeWord 0b001101#6 = .wrxFive .high ∧ decodeWord 0b000110#6 = .wrxSixSeven 6#3 .low ∧
  decodeWord 0b011111#6 = .read 1#1 7#3 ∧ decodeWord 0b101000#6 = .mode 0#3 .output ∧
  decodeWord 0b111111#6 = .rsvd 0b111111#6

/-- Decode and encode agree: the carrier byte of every well-formed command decodes to that command, with every operand
at every value, whatever bytes follow. -/
def Obligations.DecodeOfEncodeIsTheCommand : Prop :=
  ∀ (i : Instr) (rest : List Byte), i.wellFormed = true → decode (encodeCarrier i :: rest) = .ok (i, rest)

/-- The other direction: every one of the 64 words is the word of the well-formed command it decodes to. That the sixteen
words of READ are told apart at all, the eight with `v = 1` among them, is the model's choice (log 22): R65 ignores the
bit and R68 calls them one instruction. -/
def Obligations.EncodeOfDecodeIsTheWord : Prop :=
  ∀ c : CommandWord, (decodeWord c).wellFormed = true ∧ encode (decodeWord c) = c

/-- A carrier byte below 0x40 carries the command of its low six bits; one at or above 0x40 is no command word and stops
the machine by name. The stop is the model's choice (log 4). -/
def Obligations.CarrierBytesAreWordsWithZeroUpperBits : Prop :=
  ∀ (s : State) (b : Byte) (rest : List Byte), s.pending = b :: rest →
    (b.toNat < 64 → step s = exec (decodeWord (b.extractLsb' 0 6)) { s with pending := rest }) ∧
    (64 ≤ b.toNat → step s = .refused (.notACommandWord b))

/-- A step runs the decoded command, on the state in which its carrier byte is taken off the stream; with nothing
presented the state is held (log 5). -/
def Obligations.StepRunsTheDecodedCommand : Prop :=
  (∀ (s : State) (i : Instr) (rest : List Byte), decode s.pending = .ok (i, rest) →
    step s = exec i { s with pending := rest }) ∧
  (∀ s : State, s.pending = [] → step s = .next s)

/-- 70_reset_and_hazards.md section 5: a program is a finite list of words carried out in order. Steps of the machine on
a stream of words are the words' commands carried out one after another. The stream of carrier
bytes is the model's choice (log 4). -/
def Obligations.StepsOnAWordStreamCarryOutItsCommands : Prop :=
  ∀ (ws : List CommandWord) (rest : List Byte) (s : State), s.pending = ws.map carrierOfWord ++ rest →
    Sys2Proof.core.run ws.length s = runCommands (ws.map decodeWord) { s with pending := rest }

/-- 60_exceptions.md R100: every one of the 64 words completes, in every state. -/
def Obligations.NoCommandEverStopsTheStream : Prop :=
  ∀ (c : CommandWord) (s : State), ∃ t, exec (decodeWord c) s = .next t

/-- Any number of steps completes on a stream of command words. The stream of carrier bytes (log 4), and that a step with
nothing left holds the state (log 5), are the model's. -/
def Obligations.NoRunOfCommandWordsIsStopped : Prop :=
  ∀ (n : Nat) (s : State), (∀ b ∈ s.pending, b.toNat < 64) → ∃ t, Sys2Proof.core.run n s = .next t

/-! ## The caller's side -/

/-- 30_encoding.md R64: the word of every call, and `sel_of`, on every choice of the five identifiers; the canonical
selector of an unrecognised pin is 7, and 5 and 6 are never produced. -/
def Obligations.CallsAssembleToTheirWords : Prop :=
  (∀ (ids : PinIds) (pin : PinNumber) (v : LogicLevel) (m : PinMode),
    wordOfCall ids (.write pin v) = 0b00#2 ++ bitOfLevel v ++ selOf ids pin ∧
    wordOfCall ids (.read pin) = 0b01#2 ++ 0#1 ++ selOf ids pin ∧
    wordOfCall ids (.setMode pin m) = 0b10#2 ++ bitOfMode m ++ selOf ids pin) ∧
  (∀ ids : PinIds, selOf ids ids.data = 0#3 ∧ selOf ids ids.latch = 1#3 ∧ selOf ids ids.clock = 2#3 ∧
    selOf ids ids.oe = 3#3 ∧ selOf ids ids.dataAlt = 4#3) ∧
  (∀ (ids : PinIds) (pin : PinNumber), pin ∉ [ids.data, ids.latch, ids.clock, ids.oe, ids.dataAlt] →
    selOf ids pin = 7#3) ∧
  bitOfLevel .low = 0#1 ∧ bitOfLevel .high = 1#1 ∧ bitOfMode .input = 0#1 ∧ bitOfMode .output = 1#1

/-- 30_encoding.md sections 2 and 4, 43_other_read_mode.md: what each call becomes, and that no call becomes a reserved
word. -/
def Obligations.CallsBecomeTheirCommandsAndNeverAReservedWord : Prop :=
  (∀ (ids : PinIds) (v : LogicLevel),
    decodeWord (wordOfCall ids (.write ids.data v)) = .data v ∧
    decodeWord (wordOfCall ids (.write ids.dataAlt v)) = .dataa v ∧
    decodeWord (wordOfCall ids (.write ids.oe v)) = .oe v) ∧
  (∀ ids : PinIds,
    decodeWord (wordOfCall ids (.write ids.latch .low)) = .latchL ∧
    decodeWord (wordOfCall ids (.write ids.latch .high)) = .latchH ∧
    decodeWord (wordOfCall ids (.write ids.clock .low)) = .clkL ∧
    decodeWord (wordOfCall ids (.write ids.clock .high)) = .clkH) ∧
  (∀ (ids : PinIds) (pin : PinNumber) (v : LogicLevel),
    pin ∉ [ids.data, ids.latch, ids.clock, ids.oe, ids.dataAlt] →
    decodeWord (wordOfCall ids (.write pin v)) = .wrxSixSeven 7#3 v) ∧
  (∀ (ids : PinIds) (pin : PinNumber) (m : PinMode),
    decodeWord (wordOfCall ids (.read pin)) = .read 0#1 (selOf ids pin) ∧
    decodeWord (wordOfCall ids (.setMode pin m)) = .mode (selOf ids pin) m) ∧
  (∀ (ids : PinIds) (call : Call), opField (wordOfCall ids call) ≠ 3#2)

/-- 30_encoding.md R68: all 16 words of READ do the same thing, and all 16 words of MODE do. -/
def Obligations.ReadAndModeIgnoreTheirOperands : Prop :=
  ∀ (c d : CommandWord) (s : State),
    (opField c = 0b01#2 → opField d = 0b01#2 → exec (decodeWord c) s = exec (decodeWord d) s) ∧
    (opField c = 0b10#2 → opField d = 0b10#2 → exec (decodeWord c) s = exec (decodeWord d) s)

/-- 30_encoding.md section 6: the words of the assembler's command lines, as the table there gives them. -/
def Obligations.AssemblerLinesHaveTheirWords : Prop :=
  (wordsOfLine (.latch .low) = [0x01#6] ∧ wordsOfLine (.latch .high) = [0x09#6] ∧
    wordsOfLine (.clk .low) = [0x02#6] ∧ wordsOfLine (.clk .high) = [0x0A#6]) ∧
  (∀ v : LogicLevel,
    wordsOfLine (.data v) = [0x00#6 + 8#6 * (bitOfLevel v).setWidth 6] ∧
    wordsOfLine (.oe v) = [0x03#6 + 8#6 * (bitOfLevel v).setWidth 6] ∧
    wordsOfLine (.dataa v) = [0x04#6 + 8#6 * (bitOfLevel v).setWidth 6]) ∧
  (∀ (sel : Selector) (v : LogicLevel),
    wordsOfLine (.wrx sel v) = [sel.setWidth 6 + 8#6 * (bitOfLevel v).setWidth 6]) ∧
  (∀ sel : Selector, wordsOfLine (.read sel) = [0x10#6 + sel.setWidth 6]) ∧
  (∀ (sel : Selector) (m : PinMode),
    wordsOfLine (.mode sel m) = [0x20#6 + 8#6 * (bitOfMode m).setWidth 6 + sel.setWidth 6]) ∧
  (∀ w : CommandWord, wordsOfLine (.word w) = [w])

/-- 30_encoding.md section 6: the pseudo-instructions' words; `FRAME b` is `BEGIN`, one `SHIFT` for each bit in order, and
`COMMIT`, 2 + 3k words. On `FRAME` without bits (`k = 0`) the spec is silent: that it is `BEGIN`, `COMMIT` is the model's
choice (log 24). -/
def Obligations.PseudoInstructionsExpandToTheirWords : Prop :=
  wordsOfLine .pulse = [0x02#6, 0x0A#6] ∧
  (∀ v : LogicLevel, wordsOfLine (.shift v) = [0x00#6 + 8#6 * (bitOfLevel v).setWidth 6, 0x02#6, 0x0A#6]) ∧
  wordsOfLine .beginSequence = [0x01#6] ∧ wordsOfLine .commit = [0x09#6] ∧
  wordsOfLine .enable = [0x03#6] ∧ wordsOfLine .disable = [0x0B#6] ∧ wordsOfLine .init = [0x28#6] ∧
  (∀ bits : List LogicLevel,
    wordsOfLine (.frame bits) =
      wordsOfLine .beginSequence ++ bits.flatMap (fun v => wordsOfLine (.shift v)) ++ wordsOfLine .commit ∧
    (wordsOfLine (.frame bits)).length = 2 + 3 * bits.length)

/-! ## What each command does -/

/-- 40_data_oe.md R80: its words, and that it stores the level in `data` and changes nothing else. -/
def Obligations.DataStoresItsLevelAndNothingElse : Prop :=
  decodeWord 0x00#6 = .data .low ∧ decodeWord 0x08#6 = .data .high ∧
  ∀ (v : LogicLevel) (s : State), exec (.data v) s = .next { s with data := v }

/-- 40_data_oe.md R81: its words, that it writes the one `data` register and nothing else, and that the later of DATA and
DATAA wins. -/
def Obligations.DataaWritesTheSameRegisterAsData : Prop :=
  decodeWord 0x04#6 = .dataa .low ∧ decodeWord 0x0C#6 = .dataa .high ∧
  (∀ (v : LogicLevel) (s : State), exec (.dataa v) s = .next { s with data := v }) ∧
  (∀ (v w : LogicLevel) (s : State),
    runCommands [.data v, .dataa w] s = .next { s with data := w } ∧
    runCommands [.dataa v, .data w] s = .next { s with data := w })

/-- 40_data_oe.md R82: its words, that it stores the level in `outputEnable` and changes nothing else, and that
`outputEnable` has no effect on any command but CLK.H. -/
def Obligations.OeStoresItsLevelAndOnlyClkHReadsIt : Prop :=
  decodeWord 0x03#6 = .oe .low ∧ decodeWord 0x0B#6 = .oe .high ∧
  (∀ (v : LogicLevel) (s : State), exec (.oe v) s = .next { s with outputEnable := v }) ∧
  (∀ (i : Instr) (v : LogicLevel) (s : State), i ≠ .clkH → (∀ w, i ≠ .oe w) →
    ∃ t, exec i s = .next t ∧ exec i { s with outputEnable := v } = .next { t with outputEnable := v })

/-- 41_latch.md R85: its word, and that it stores Low and re-arms the cursor whatever they were, and changes nothing else. -/
def Obligations.LatchLowRearmsTheCursorAndNothingElse : Prop :=
  decodeWord 0x01#6 = .latchL ∧
  ∀ s : State, exec .latchL s = .next { s with latch := .low, cursor := (s.board.stationCount : Int) - 1 }

/-- 41_latch.md R86: its word; with `latch` High nothing changes; with `latch` Low the buffer is committed: one event for
each station below `N`, in ascending index (the spec's decision D9), each the negation of its station on its pin, the
last write to a pin is the level the shadow keeps, no other pin's level changes, and nothing else does. The order is log
11; that the level before is the stored `latch` is the spec's decision D12 (log 21). -/
def Obligations.LatchHighCommitsOnARisingChangeOnly : Prop :=
  decodeWord 0x09#6 = .latchH ∧ negate .low = .high ∧ negate .high = .low ∧
  (∀ s : State, s.latch = .high → exec .latchH s = .next s) ∧
  (∀ s : State, s.WF → s.latch = .low → ∃ (levels : PinTable LogicLevel) (events : List Event),
    exec .latchH s = .next { s with latch := .high, trace := s.trace ++ events, pinLevel := levels } ∧
    events.length = s.board.stationCount ∧
    (∀ i, i < s.board.stationCount → ∃ p v, s.board.pinMap[i]? = some p ∧ s.stationState[i]? = some v ∧
      events[i]? = some (.pinWrite p (negate v)) ∧
      ((∀ j, i < j → j < s.board.stationCount → s.board.pinMap[j]? ≠ some p) → levels.read p = some (negate v))) ∧
    (∀ p, p ∉ s.board.pinMap.take s.board.stationCount → levels.read p = s.pinLevel.read p))

/-- 20_memory.md section 6 (a map that is not injective): of two stations on one pin the later one's level is what
`pinLevel` keeps, when no still later station has that pin; it rests on the spec's decision D9 (log 11). -/
def Obligations.LaterStationWinsASharedPin : Prop :=
  ∀ (s : State) (i j : Nat) (p : PhysPin) (v : LogicLevel), s.WF → s.latch = .low →
    i < j → j < s.board.stationCount → s.board.pinMap[i]? = some p → s.board.pinMap[j]? = some p →
    (∀ k, j < k → k < s.board.stationCount → s.board.pinMap[k]? ≠ some p) → s.stationState[j]? = some v →
    ∃ t, exec .latchH s = .next t ∧ t.pinLevel.read p = some (negate v) ∧
      2 ≤ (t.trace.drop s.trace.length).countP (fun e => (e.levelFor p).isSome)

/-- 42_clock.md R90: its word, and that it stores Low in `clock` and changes nothing else. -/
def Obligations.ClkLowStoresLowAndNothingElse : Prop :=
  decodeWord 0x02#6 = .clkL ∧ ∀ s : State, exec .clkL s = .next { s with clock := .low }

/-- 42_clock.md R91: its word and its three cases, each with everything that changes. The case at `cursor == -1` is the
spec's decision D8 (log 9); that `clock` is not consulted is D13 (log 10). -/
def Obligations.ClkHighCapturesOrOverrunsOrOnlyStoresClock : Prop :=
  decodeWord 0x0A#6 = .clkH ∧
  (∀ s : State, (s.latch = .high ∨ s.outputEnable = .high) → exec .clkH s = .next { s with clock := .high }) ∧
  (∀ s : State, s.latch = .low → s.outputEnable = .low → s.cursor = -1 →
    exec .clkH s = .next
      { s with clock := .high, overrun := true, trace := s.trace ++ [.diag .cursorOverrun] }) ∧
  (∀ s : State, s.WF → s.latch = .low → s.outputEnable = .low → s.cursor ≠ -1 → ∃ stations : List LogicLevel,
    exec .clkH s = .next
      { s with clock := .high, stationState := stations, cursor := s.cursor - 1 } ∧
    stations.length = s.stationState.length ∧
    ∀ i : Nat, i < s.board.stationCount →
      stations[i]? = if (i : Int) = s.cursor then some s.data else s.stationState[i]?)

/-- 43_other_read_mode.md R95: its six words, and that it appends the diagnostic with the selector and changes nothing
else, whatever the level. -/
def Obligations.WrxOnlyRecordsADiagnostic : Prop :=
  (decodeWord 0x05#6 = .wrxFive .low ∧ decodeWord 0x0D#6 = .wrxFive .high ∧
    decodeWord 0x06#6 = .wrxSixSeven 6#3 .low ∧ decodeWord 0x0E#6 = .wrxSixSeven 6#3 .high ∧
    decodeWord 0x07#6 = .wrxSixSeven 7#3 .low ∧ decodeWord 0x0F#6 = .wrxSixSeven 7#3 .high) ∧
  (∀ (v : LogicLevel) (s : State),
    exec (.wrxFive v) s = .next { s with trace := s.trace ++ [.diag (.unrecognisedPin 5#3)] }) ∧
  (∀ (sel : Selector) (v : LogicLevel) (s : State),
    exec (.wrxSixSeven sel v) s = .next { s with trace := s.trace ++ [.diag (.unrecognisedPin sel)] })

/-- 43_other_read_mode.md R96: its words, and that it responds Low, whatever the operands and the state, and changes
nothing else. -/
def Obligations.ReadAlwaysRespondsLow : Prop :=
  (∀ c : CommandWord, 0x10 ≤ c.toNat → c.toNat ≤ 0x1F → decodeWord c = .read (vField c) (selField c)) ∧
  ∀ (v : BitVec 1) (sel : Selector) (s : State),
    exec (.read v sel) s = .next { s with trace := s.trace ++ [.readResp .low] }

/-- 43_other_read_mode.md R97: its words; the first MODE asks for all `MAP_LEN` map entries in ascending index (the
spec's decision D9) to be outputs and sets `initDone`, and changes nothing else; a later one changes nothing. -/
def Obligations.FirstModeMakesEveryMappedPinAnOutput : Prop :=
  (∀ c : CommandWord, 0x20 ≤ c.toNat → c.toNat ≤ 0x2F →
    decodeWord c = .mode (selField c) (modeOfBit (vField c))) ∧
  (∀ (sel : Selector) (m : PinMode) (s : State), s.initDone = true → exec (.mode sel m) s = .next s) ∧
  (∀ (sel : Selector) (m : PinMode) (s : State), s.initDone = false → ∃ dirs : PinTable PinMode,
    exec (.mode sel m) s = .next
      { s with initDone := true, pinDir := dirs,
               trace := s.trace ++ s.board.pinMap.map (fun p => .pinDir p .output) } ∧
    (∀ p, p ∈ s.board.pinMap → dirs.read p = some .output) ∧
    (∀ p, p ∉ s.board.pinMap → dirs.read p = s.pinDir.read p))

/-- 43_other_read_mode.md R98: its words, and that it appends the diagnostic with the word and changes nothing else (the
spec's decision D5, log 8). -/
def Obligations.ReservedWordOnlyRecordsADiagnostic : Prop :=
  (∀ c : CommandWord, 0x30 ≤ c.toNat → decodeWord c = .rsvd c) ∧
  ∀ (c : CommandWord) (s : State),
    exec (.rsvd c) s = .next { s with trace := s.trace ++ [.diag (.reservedCommand c)] }

/-! ## Who writes what -/

/-- 10_state.md R21: each of the four control lines is written by its own family with the level given, and by nothing
else. -/
def Obligations.ControlLinesAreWrittenByTheirFamilyOnly : Prop :=
  ∀ (i : Instr) (s : State), ∃ t, exec i s = .next t ∧
    t.data = (match i with | .data v => v | .dataa v => v | _ => s.data) ∧
    t.latch = (match i with | .latchL => .low | .latchH => .high | _ => s.latch) ∧
    t.clock = (match i with | .clkL => .low | .clkH => .high | _ => s.clock) ∧
    t.outputEnable = (match i with | .oe v => v | _ => s.outputEnable)

/-- 10_state.md section 3, 42_clock.md section "The capture as a store": an entry of the buffer changes only by a
qualifying CLK.H, only at the cursor, and only to `data`; the buffer keeps its length. -/
def Obligations.StationsAreWrittenByACaptureOnly : Prop :=
  ∀ (i : Instr) (s : State), s.WF → ∃ t, exec i s = .next t ∧ t.stationState.length = s.stationState.length ∧
    ∀ k : Nat, t.stationState[k]? ≠ s.stationState[k]? →
      i = .clkH ∧ s.latch = .low ∧ s.outputEnable = .low ∧ s.cursor = (k : Int) ∧ t.stationState[k]? = some s.data

/-- 10_state.md section 4: the cursor is set to `N-1` by LATCH.L, lowered by one by a capture, and moved by nothing
else; that it stops at -1 is the spec's decision D8 (log 9). -/
def Obligations.CursorMovesByRearmAndCaptureOnly : Prop :=
  ∀ (i : Instr) (s : State), ∃ t, exec i s = .next t ∧
    t.cursor = (match i with
      | .latchL => (s.board.stationCount : Int) - 1
      | .clkH => if s.latch = .low ∧ s.outputEnable = .low ∧ s.cursor ≠ -1 then s.cursor - 1 else s.cursor
      | _ => s.cursor)

/-- 10_state.md R27: `initDone` is false at reset, is set by MODE, is cleared by nothing, and is read by MODE only: every
other command does the same whether it is true or false (D11, log 12). -/
def Obligations.InitDoneIsSetByModeAndReadByModeOnly : Prop :=
  (∀ b : Board, (State.resetFor b).initDone = false) ∧
  (∀ (i : Instr) (s : State), ∃ t, exec i s = .next t ∧
    t.initDone = (match i with | .mode _ _ => true | _ => s.initDone)) ∧
  (∀ (i : Instr) (s : State) (f : Bool), (∀ sel m, i ≠ .mode sel m) →
    ∃ t, exec i s = .next t ∧ exec i { s with initDone := f } = .next { t with initDone := f })

/-- 10_state.md R28: `overrun` is false at reset, is set by a qualifying CLK.H at `cursor == -1`, is cleared by nothing,
and no behaviour depends on it (the spec's decision D8, log 9). -/
def Obligations.OverrunIsStickyAndReadByNothing : Prop :=
  (∀ b : Board, (State.resetFor b).overrun = false) ∧
  (∀ (i : Instr) (s : State), ∃ t, exec i s = .next t ∧
    (t.overrun = true ↔
      s.overrun = true ∨ (i = .clkH ∧ s.latch = .low ∧ s.outputEnable = .low ∧ s.cursor = -1))) ∧
  (∀ (i : Instr) (s : State) (f : Bool), ∃ t u, exec i s = .next t ∧ exec i { s with overrun := f } = .next u ∧
    { u with overrun := t.overrun } = t)

/-- 10_state.md R31: the trace is empty at reset, and each command appends its own events at the end, in the order its
pseudocode produces them, and removes and reorders none. That a commit and the first MODE go in ascending index is the
spec's decision D9 (log 11), that a commit tests the stored `latch` D12 (log 21), the overrun's case D8 (log 9), the
reserved word's event D5 (log 8). -/
def Obligations.TraceGrowsByEachCommandsOwnEvents : Prop :=
  (∀ b : Board, (State.resetFor b).trace = []) ∧
  (∀ (i : Instr) (s : State), ∃ t events, exec i s = .next t ∧ t.trace = s.trace ++ events ∧
    events = match i with
      | .latchH =>
        if s.latch = .low then
          commitEvents (s.board.pinMap.take s.board.stationCount) (s.stationState.take s.board.stationCount)
        else []
      | .clkH =>
        if s.latch = .low ∧ s.outputEnable = .low ∧ s.cursor = -1 then [.diag .cursorOverrun] else []
      | .mode _ _ => if s.initDone then [] else s.board.pinMap.map (fun p => .pinDir p .output)
      | .wrxFive _ => [.diag (.unrecognisedPin 5#3)]
      | .wrxSixSeven sel _ => [.diag (.unrecognisedPin sel)]
      | .read _ _ => [.readResp .low]
      | .rsvd c => [.diag (.reservedCommand c)]
      | .data _ => []
      | .dataa _ => []
      | .oe _ => []
      | .latchL => []
      | .clkL => [])

/-- 20_memory.md section 1 (the physical pin space): a pin's level changes only at a committing LATCH.H and only on the
first `N` map entries, its direction only at the first MODE and only on map entries. That a commit tests the stored
`latch` is the spec's decision D12 (log 21). -/
def Obligations.PhysicalPinsAreTouchedByCommitAndFirstModeOnly : Prop :=
  ∀ (i : Instr) (s : State), ∃ t, exec i s = .next t ∧
    (∀ p, t.pinLevel.read p ≠ s.pinLevel.read p →
      i = .latchH ∧ s.latch = .low ∧ p ∈ s.board.pinMap.take s.board.stationCount) ∧
    (∀ p, t.pinDir.read p ≠ s.pinDir.read p →
      (∃ sel m, i = .mode sel m) ∧ s.initDone = false ∧ p ∈ s.board.pinMap ∧ t.pinDir.read p = some .output)

/-- 60_exceptions.md section 3 (d): at most one diagnostic arises from one command. That an overrun and a
reserved word give one each is the spec's decisions D8 (log 9) and D5 (log 8). -/
def Obligations.OneCommandRecordsAtMostOneDiagnostic : Prop :=
  ∀ (i : Instr) (s : State), ∃ t events, exec i s = .next t ∧ t.trace = s.trace ++ events ∧
    events.countP Event.isDiag ≤ 1

/-- 70_reset_and_hazards.md section 5: a command makes a run go wrong exactly when it is a reserved word or an overrun,
and a run that has gone wrong stays so; an unrecognised pin does not make it go wrong. That both are
carried out and recorded is the spec's decisions D8 (log 9) and D5 (log 8). -/
def Obligations.RunGoesWrongByOverrunOrReservedWordOnly : Prop :=
  ∀ (i : Instr) (s : State), ∃ t, exec i s = .next t ∧
    (t.goneWrong = true ↔ s.goneWrong = true ∨
      (i = .clkH ∧ s.latch = .low ∧ s.outputEnable = .low ∧ s.cursor = -1) ∨ ∃ c, i = .rsvd c)

/-! ## Whole-machine rules -/

/-- 20_memory.md section 5 (the table of repeated commands, marked derived): repeating a command at once changes nothing
for DATA, DATAA, OE, LATCH, CLK.L and MODE; WRX and READ append their event once more and change no state; CLK.H changes
nothing when it does not qualify, captures again into the next lower index when it does, and at the end of the buffer
records one more overrun. RSVD, which the table does not list, appends its event once more by 43_other_read_mode.md: that
it is carried out is the model's choice (log 8). That the second LATCH.H does nothing is the spec's decision D12 (log
21), that the second CLK.H acts with `clock` already High is D13 (log 10), the overrun is D8 (log 9). -/
def Obligations.RepeatedCommandsDoWhatTheTableSays : Prop :=
  (∀ (i : Instr) (s : State), i ≠ .clkH → ∃ t u, exec i s = .next t ∧ exec i t = .next u ∧
    match i with
    | .wrxFive _ => u = { t with trace := t.trace ++ [.diag (.unrecognisedPin 5#3)] }
    | .wrxSixSeven sel _ => u = { t with trace := t.trace ++ [.diag (.unrecognisedPin sel)] }
    | .read _ _ => u = { t with trace := t.trace ++ [.readResp .low] }
    | .rsvd c => u = { t with trace := t.trace ++ [.diag (.reservedCommand c)] }
    | _ => u = t) ∧
  (∀ s : State, (s.latch = .high ∨ s.outputEnable = .high) →
    ∃ t, exec .clkH s = .next t ∧ exec .clkH t = .next t) ∧
  (∀ (s : State) (k : Nat), s.latch = .low → s.outputEnable = .low → s.cursor = (k : Int) + 1 →
    ∃ t, exec .clkH s = .next t ∧ t.cursor = (k : Int) ∧
      t.stationState = s.stationState.set (k + 1) s.data ∧
      exec .clkH t = .next { t with stationState := t.stationState.set k s.data, cursor := (k : Int) - 1 }) ∧
  (∀ s : State, s.latch = .low → s.outputEnable = .low → s.cursor = 0 ∨ s.cursor = -1 →
    ∃ t, exec .clkH s = .next t ∧
      exec .clkH t = .next { t with overrun := true, trace := t.trace ++ [.diag .cursorOverrun] })

/-- 40_data_oe.md, last section: a DATA or DATAA command and an adjacent OE command may change places. -/
def Obligations.DataAndOeCommandsCommute : Prop :=
  ∀ (v w : LogicLevel) (s : State),
    runCommands [.data v, .oe w] s = .next { s with data := v, outputEnable := w } ∧
    runCommands [.oe w, .data v] s = .next { s with data := v, outputEnable := w } ∧
    runCommands [.dataa v, .oe w] s = .next { s with data := v, outputEnable := w } ∧
    runCommands [.oe w, .dataa v] s = .next { s with data := v, outputEnable := w }

/-- 10_state.md section 8 (the rule on `clock`, marked derived): "two states that differ only in `clock` are
indistinguishable by any sequence of commands": the runs agree on everything but `clock`, the trace included. -/
def Obligations.StoredClockIsUnobservable : Prop :=
  ∀ (n : Nat) (s t : State) (v : LogicLevel), Sys2Proof.core.run n s = .next t →
    ∃ u, Sys2Proof.core.run n { s with clock := v } = .next u ∧ { u with clock := t.clock } = t

/-- 95_test_vectors.md T3 and 41_latch.md, corner case (j) of LATCH.H: while LATCH stays High no command changes the
buffer, the cursor, `overrun` or any pin's level. That a repeated LATCH.H commits nothing is the spec's decision D12 (log
21). -/
def Obligations.NothingIsCapturedWhileLatchIsHigh : Prop :=
  ∀ (is : List Instr) (s : State), s.latch = .high → .latchL ∉ is → ∃ t, runCommands is s = .next t ∧
    t.stationState = s.stationState ∧ t.cursor = s.cursor ∧ t.overrun = s.overrun ∧ t.pinLevel = s.pinLevel

/-- 95_test_vectors.md T4: while OUTPUT_ENABLE stays High no command changes the buffer or `overrun`, even if LATCH is
Low. -/
def Obligations.NothingIsCapturedWhileOutputEnableIsHigh : Prop :=
  ∀ (is : List Instr) (s : State), s.outputEnable = .high → .oe .low ∉ is → ∃ t, runCommands is s = .next t ∧
    t.stationState = s.stationState ∧ t.overrun = s.overrun

/-- 70_reset_and_hazards.md section 3 (at most N per sequence), 42_clock.md corner case (f) of CLK.H: excess clock writes
leave the buffer and the cursor alone, set `overrun`, and are recorded one by one (the spec's decision D8, log 9), also
with `clock` already High (D13, log 10). -/
def Obligations.ExcessClockWritesAreRejectedOneByOne : Prop :=
  ∀ (k : Nat) (s : State), s.latch = .low → s.outputEnable = .low → s.cursor = -1 →
    runCommands (List.replicate (k + 1) .clkH) s = .next
      { s with clock := .high, overrun := true,
               trace := s.trace ++ List.replicate (k + 1) (.diag .cursorOverrun) }

/-- 41_latch.md, corner case (j) of LATCH.H: once committed, a second commit would drive the levels the pins already
have. Every step from a state where that holds leaves it so. That `latch` stays High through a repeated LATCH.H without a
commit is the spec's decision D12 (log 21). -/
def Obligations.StepsKeepARepeatedCommitRedundant : Prop :=
  ∀ s t : State, (s.latch = .high → ∀ p, s.commit.pinLevel.read p = s.pinLevel.read p) → step s = .next t →
    (t.latch = .high → ∀ p, t.commit.pinLevel.read p = t.pinLevel.read p)

/-- 43_other_read_mode.md (MODE, "exactly once"): the direction requests in the trace are none before the first MODE and
one for each map entry, in order, from then on; every step keeps this. -/
def Obligations.StepsKeepTheInitialisationDoneOnce : Prop :=
  ∀ s t : State,
    s.trace.filter Event.isPinDir = (if s.initDone then s.board.pinMap.map (fun p => .pinDir p .output) else []) →
    step s = .next t →
    t.trace.filter Event.isPinDir = (if t.initDone then t.board.pinMap.map (fun p => .pinDir p .output) else [])

/-- What the two statements before start from holds at reset: nothing is initialised and `latch` is Low. -/
def Obligations.ResetStartsUninitialisedAndUncommitted : Prop :=
  ∀ b : Board, (State.resetFor b).trace.filter Event.isPinDir = [] ∧ (State.resetFor b).initDone = false ∧
    (State.resetFor b).latch = .low

/-- 42_clock.md, section "After k qualifying pulses" (marked derived): after LATCH.L and any commands without a LATCH
command among them, of which `k` of at most `N` are qualifying CLK.H, the cursor is `N-1-k`, station `N-j` holds the
`j`-th bit sampled, every lower station is as before, and no overrun is recorded. That a CLK.H counts with `clock` already
High is the spec's decision D13 (log 10). -/
def Obligations.ShiftSequenceFillsStationsFromTheTop : Prop :=
  ∀ (is : List Instr) (s : State) (bits : List LogicLevel), s.WF → .latchL ∉ is → .latchH ∉ is →
    bits = sampledBits is s.data s.outputEnable → bits.length ≤ s.board.stationCount →
    ∃ t, runCommands (.latchL :: is) s = .next t ∧
      t.cursor = (s.board.stationCount : Int) - 1 - bits.length ∧
      (∀ j, 1 ≤ j → j ≤ bits.length → t.stationState[s.board.stationCount - j]? = bits[j - 1]?) ∧
      (∀ i, i < s.board.stationCount - bits.length → t.stationState[i]? = s.stationState[i]?) ∧
      t.overrun = s.overrun

/-- 95_test_vectors.md L-1 (T1) and 20_memory.md section 2: a whole frame of `N` bits, sent as DATA, CLK.L, CLK.H each
with OUTPUT_ENABLE Low, leaves the first bit in the highest station. -/
def Obligations.WholeFrameLandsFirstBitInHighestStation : Prop :=
  ∀ (bits : List LogicLevel) (s : State), s.WF → s.outputEnable = .low → bits.length = s.board.stationCount →
    ∃ t, runCommands (.latchL :: bits.flatMap shiftCommands) s = .next t ∧
      (∀ i, i < s.board.stationCount → t.stationState[s.board.stationCount - 1 - i]? = bits[i]?) ∧
      t.cursor = -1 ∧ t.overrun = s.overrun ∧ t.trace = s.trace

/-- 70_reset_and_hazards.md section 2: after the boot sequence, from any well-formed state not yet initialised and
without an overrun, the state is as the section lists, none of it depending on what was there before. The
order of its events is the spec's decision D9 (log 11). -/
def Obligations.BootSequenceEstablishesTheKnownState : Prop :=
  ∀ (sel : Selector) (m : PinMode) (bits : List LogicLevel) (s : State), s.WF → s.initDone = false →
    s.overrun = false → bits.length = s.board.stationCount →
    ∃ t, runCommands (bootCommands sel m bits) s = .next t ∧
      t.latch = .high ∧ t.outputEnable = .low ∧ t.cursor = -1 ∧ t.stationState = bits.reverse ∧
      some t.data = bits.getLast? ∧ t.clock = .high ∧ t.initDone = true ∧ t.overrun = false ∧
      (∀ p, p ∈ t.board.pinMap → t.pinDir.read p = some .output) ∧
      (∀ p, p ∈ t.board.pinMap.take t.board.stationCount → (t.pinLevel.read p).isSome) ∧
      t.trace = s.trace ++ s.board.pinMap.map (fun p => .pinDir p .output) ++ commitEvents s.board.pinMap bits.reverse

/-- 70_reset_and_hazards.md section 3 (a commit needs a Low before its High): LATCH.L then LATCH.H drives the buffer
again and does not disturb it. The order of the events is the spec's decision D9 (log 11). -/
def Obligations.LowThenHighDrivesThePatternAgain : Prop :=
  ∀ s : State, s.WF → ∃ t, runCommands [.latchL, .latchH] s = .next t ∧
    t.stationState = s.stationState ∧ t.trace = s.trace ++ commitEvents s.board.pinMap s.stationState ∧
    t.cursor = (s.board.stationCount : Int) - 1 ∧ t.latch = .high

/-- A pin the block has given a level is one of the first `N` entries of the map, the only ones a commit writes
(20_memory.md section 1, the physical pin space). Every step keeps this. -/
def Obligations.StepsDriveMappedPinsOnly : Prop :=
  ∀ s t : State, s.DrivesMappedPinsOnly → step s = .next t → t.DrivesMappedPinsOnly

/-- At reset no pin has a level, on every board (10_state.md section 9, the spec's decision D7, log 3), and so the
invariant of the statement before holds there. -/
def Obligations.ResetDrivesNoPin : Prop :=
  ∀ b : Board, (∀ p, (State.resetFor b).pinLevel.read p = none) ∧ (State.resetFor b).DrivesMappedPinsOnly

/-- 60_exceptions.md section 7: under BACKEND_OK the level of a physical pin is `pinLevel` wherever that is not `none`,
whatever the levels were before and whatever drives other pins. Without either clause of the premise it need not be: not
when a request may fail, although nothing else drives the pins; not when something else drives a mapped pin, although
every request succeeds. How the world is written down is the model's choice (log 17). -/
def Obligations.PinLevelsAreRealUnderBackendOkOnly : Prop :=
  (∀ (s : State) (levels : PhysPin → LogicLevel) (world : List WorldEvent), s.WF → s.DrivesMappedPinsOnly →
    issuedEvents world = s.trace → BackendOk s.board.pinMap world →
    ∀ p v, s.pinLevel.read p = some v → realLevels levels world p = v) ∧
  (∃ (s : State) (levels : PhysPin → LogicLevel) (world : List WorldEvent) (p : PhysPin) (v : LogicLevel),
    s.WF ∧ s.DrivesMappedPinsOnly ∧ issuedEvents world = s.trace ∧ NothingElseDrives s.board.pinMap world ∧
    s.pinLevel.read p = some v ∧ realLevels levels world p ≠ v) ∧
  (∃ (s : State) (levels : PhysPin → LogicLevel) (world : List WorldEvent) (p : PhysPin) (v : LogicLevel),
    s.WF ∧ s.DrivesMappedPinsOnly ∧ issuedEvents world = s.trace ∧ EveryRequestSucceeds world ∧
    s.pinLevel.read p = some v ∧ realLevels levels world p ≠ v)
end

