-- ==== Sys2Proof/Laws/Pins.lean ====
section
/-! SUPPORT. The laws of a pin table: a read after a write, the canonical form, and that equal reads mean equal tables. -/
namespace Sys2Proof.Machine

variable {α : Type}

/-- A read after a write: the value written at the pin written, the old reading at every other pin. -/
theorem PinTable.read_write (t : PinTable α) (p q : PhysPin) (v : α) :
    (PinTable.write t p v).read q = if q = p then some v else t.read q := by
  induction t with
  | nil => simp [PinTable.write, PinTable.read]
  | cons e rest ih =>
    obtain ⟨k, w⟩ := e
    unfold PinTable.write
    split
    · simp [PinTable.read]
    · split
      · subst_vars
        by_cases h : q = k <;> simp [PinTable.read, h]
      · rename_i hne
        by_cases h : q = k
        · subst h; simp [PinTable.read, Ne.symm hne]
        · simp [PinTable.read, h, ih]

@[simp] theorem PinTable.read_write_self (t : PinTable α) (p : PhysPin) (v : α) :
    (PinTable.write t p v).read p = some v := by simp [PinTable.read_write]

theorem PinTable.read_write_of_ne (t : PinTable α) {p q : PhysPin} (v : α) (h : q ≠ p) :
    (PinTable.write t p v).read q = t.read q := by simp [PinTable.read_write, h]

/-- The keys of a table after a write are its old keys and the pin written. -/
theorem PinTable.mem_write {t : PinTable α} {p : PhysPin} {v : α} {e : PhysPin × α}
    (h : e ∈ PinTable.write t p v) : e.1 = p ∨ e ∈ t := by
  induction t with
  | nil => simp [PinTable.write] at h; simp [h]
  | cons f rest ih =>
    obtain ⟨k, w⟩ := f
    unfold PinTable.write at h
    split at h
    · rcases List.mem_cons.1 h with rfl | h
      · exact .inl rfl
      · exact .inr h
    · split at h
      · rcases List.mem_cons.1 h with rfl | h
        · exact .inl rfl
        · exact .inr (List.mem_cons_of_mem _ h)
      · rcases List.mem_cons.1 h with rfl | h
        · exact .inr List.mem_cons_self
        · exact (ih h).imp id (List.mem_cons_of_mem _)

/-- Every write keeps the canonical form. -/
theorem PinTable.wf_write {t : PinTable α} (p : PhysPin) (v : α) (h : t.wf) : (PinTable.write t p v).wf := by
  induction t with
  | nil => simp [PinTable.write, PinTable.wf]
  | cons f rest ih =>
    obtain ⟨k, w⟩ := f
    obtain ⟨hk, hrest⟩ := List.pairwise_cons.1 h
    unfold PinTable.write
    split
    · rename_i hlt
      refine List.pairwise_cons.2 ⟨fun e he => ?_, h⟩
      rcases List.mem_cons.1 he with rfl | he
      · exact hlt
      · exact Int.lt_trans hlt (hk e he)
    · split
      · subst_vars
        exact List.pairwise_cons.2 ⟨hk, hrest⟩
      · refine List.pairwise_cons.2 ⟨fun e he => ?_, ih hrest⟩
        rcases PinTable.mem_write he with rfl | he
        · rename_i hlt hne
          exact (Int.lt_or_gt_of_ne hne).resolve_left hlt
        · exact hk e he

/-- A pin with a value has an entry of the table. -/
theorem PinTable.mem_of_read {t : PinTable α} {p : PhysPin} (h : t.read p ≠ none) : ∃ e ∈ t, e.1 = p := by
  induction t with
  | nil => exact absurd rfl h
  | cons e t ih =>
    by_cases hp : p = e.1
    · exact ⟨e, List.mem_cons_self, hp.symm⟩
    · rw [PinTable.read, if_neg hp] at h
      obtain ⟨e', he, rfl⟩ := ih h
      exact ⟨e', List.mem_cons_of_mem _ he, rfl⟩

/-- The empty table, which reset leaves, is in canonical form. -/
theorem PinTable.wf_nil : PinTable.wf ([] : PinTable α) := List.Pairwise.nil

end Sys2Proof.Machine
end

