-- ==== Sys2Proof/Laws/State.lean ====
section
/-! SUPPORT. One lemma for each field and each update of State, true by rfl, so that no later proof unfolds an update. -/
namespace Sys2Proof.Machine

/-! `setData` -/

@[simp] theorem State.setData_board (s : State) (v : LogicLevel) : (s.setData v).board = s.board := rfl
@[simp] theorem State.setData_data (s : State) (v : LogicLevel) : (s.setData v).data = v := rfl
@[simp] theorem State.setData_latch (s : State) (v : LogicLevel) : (s.setData v).latch = s.latch := rfl
@[simp] theorem State.setData_clock (s : State) (v : LogicLevel) : (s.setData v).clock = s.clock := rfl
@[simp] theorem State.setData_outputEnable (s : State) (v : LogicLevel) : (s.setData v).outputEnable = s.outputEnable := rfl
@[simp] theorem State.setData_cursor (s : State) (v : LogicLevel) : (s.setData v).cursor = s.cursor := rfl
@[simp] theorem State.setData_stationState (s : State) (v : LogicLevel) : (s.setData v).stationState = s.stationState := rfl
@[simp] theorem State.setData_initDone (s : State) (v : LogicLevel) : (s.setData v).initDone = s.initDone := rfl
@[simp] theorem State.setData_overrun (s : State) (v : LogicLevel) : (s.setData v).overrun = s.overrun := rfl
@[simp] theorem State.setData_pinLevel (s : State) (v : LogicLevel) : (s.setData v).pinLevel = s.pinLevel := rfl
@[simp] theorem State.setData_pinDir (s : State) (v : LogicLevel) : (s.setData v).pinDir = s.pinDir := rfl
@[simp] theorem State.setData_trace (s : State) (v : LogicLevel) : (s.setData v).trace = s.trace := rfl
@[simp] theorem State.setData_pending (s : State) (v : LogicLevel) : (s.setData v).pending = s.pending := rfl

/-! `setLatch` -/

@[simp] theorem State.setLatch_board (s : State) (v : LogicLevel) : (s.setLatch v).board = s.board := rfl
@[simp] theorem State.setLatch_data (s : State) (v : LogicLevel) : (s.setLatch v).data = s.data := rfl
@[simp] theorem State.setLatch_latch (s : State) (v : LogicLevel) : (s.setLatch v).latch = v := rfl
@[simp] theorem State.setLatch_clock (s : State) (v : LogicLevel) : (s.setLatch v).clock = s.clock := rfl
@[simp] theorem State.setLatch_outputEnable (s : State) (v : LogicLevel) : (s.setLatch v).outputEnable = s.outputEnable := rfl
@[simp] theorem State.setLatch_cursor (s : State) (v : LogicLevel) : (s.setLatch v).cursor = s.cursor := rfl
@[simp] theorem State.setLatch_stationState (s : State) (v : LogicLevel) : (s.setLatch v).stationState = s.stationState := rfl
@[simp] theorem State.setLatch_initDone (s : State) (v : LogicLevel) : (s.setLatch v).initDone = s.initDone := rfl
@[simp] theorem State.setLatch_overrun (s : State) (v : LogicLevel) : (s.setLatch v).overrun = s.overrun := rfl
@[simp] theorem State.setLatch_pinLevel (s : State) (v : LogicLevel) : (s.setLatch v).pinLevel = s.pinLevel := rfl
@[simp] theorem State.setLatch_pinDir (s : State) (v : LogicLevel) : (s.setLatch v).pinDir = s.pinDir := rfl
@[simp] theorem State.setLatch_trace (s : State) (v : LogicLevel) : (s.setLatch v).trace = s.trace := rfl
@[simp] theorem State.setLatch_pending (s : State) (v : LogicLevel) : (s.setLatch v).pending = s.pending := rfl

/-! `setClock` -/

@[simp] theorem State.setClock_board (s : State) (v : LogicLevel) : (s.setClock v).board = s.board := rfl
@[simp] theorem State.setClock_data (s : State) (v : LogicLevel) : (s.setClock v).data = s.data := rfl
@[simp] theorem State.setClock_latch (s : State) (v : LogicLevel) : (s.setClock v).latch = s.latch := rfl
@[simp] theorem State.setClock_clock (s : State) (v : LogicLevel) : (s.setClock v).clock = v := rfl
@[simp] theorem State.setClock_outputEnable (s : State) (v : LogicLevel) : (s.setClock v).outputEnable = s.outputEnable := rfl
@[simp] theorem State.setClock_cursor (s : State) (v : LogicLevel) : (s.setClock v).cursor = s.cursor := rfl
@[simp] theorem State.setClock_stationState (s : State) (v : LogicLevel) : (s.setClock v).stationState = s.stationState := rfl
@[simp] theorem State.setClock_initDone (s : State) (v : LogicLevel) : (s.setClock v).initDone = s.initDone := rfl
@[simp] theorem State.setClock_overrun (s : State) (v : LogicLevel) : (s.setClock v).overrun = s.overrun := rfl
@[simp] theorem State.setClock_pinLevel (s : State) (v : LogicLevel) : (s.setClock v).pinLevel = s.pinLevel := rfl
@[simp] theorem State.setClock_pinDir (s : State) (v : LogicLevel) : (s.setClock v).pinDir = s.pinDir := rfl
@[simp] theorem State.setClock_trace (s : State) (v : LogicLevel) : (s.setClock v).trace = s.trace := rfl
@[simp] theorem State.setClock_pending (s : State) (v : LogicLevel) : (s.setClock v).pending = s.pending := rfl

/-! `setOutputEnable` -/

@[simp] theorem State.setOutputEnable_board (s : State) (v : LogicLevel) : (s.setOutputEnable v).board = s.board := rfl
@[simp] theorem State.setOutputEnable_data (s : State) (v : LogicLevel) : (s.setOutputEnable v).data = s.data := rfl
@[simp] theorem State.setOutputEnable_latch (s : State) (v : LogicLevel) : (s.setOutputEnable v).latch = s.latch := rfl
@[simp] theorem State.setOutputEnable_clock (s : State) (v : LogicLevel) : (s.setOutputEnable v).clock = s.clock := rfl
@[simp] theorem State.setOutputEnable_outputEnable (s : State) (v : LogicLevel) : (s.setOutputEnable v).outputEnable = v := rfl
@[simp] theorem State.setOutputEnable_cursor (s : State) (v : LogicLevel) : (s.setOutputEnable v).cursor = s.cursor := rfl
@[simp] theorem State.setOutputEnable_stationState (s : State) (v : LogicLevel) : (s.setOutputEnable v).stationState = s.stationState := rfl
@[simp] theorem State.setOutputEnable_initDone (s : State) (v : LogicLevel) : (s.setOutputEnable v).initDone = s.initDone := rfl
@[simp] theorem State.setOutputEnable_overrun (s : State) (v : LogicLevel) : (s.setOutputEnable v).overrun = s.overrun := rfl
@[simp] theorem State.setOutputEnable_pinLevel (s : State) (v : LogicLevel) : (s.setOutputEnable v).pinLevel = s.pinLevel := rfl
@[simp] theorem State.setOutputEnable_pinDir (s : State) (v : LogicLevel) : (s.setOutputEnable v).pinDir = s.pinDir := rfl
@[simp] theorem State.setOutputEnable_trace (s : State) (v : LogicLevel) : (s.setOutputEnable v).trace = s.trace := rfl
@[simp] theorem State.setOutputEnable_pending (s : State) (v : LogicLevel) : (s.setOutputEnable v).pending = s.pending := rfl

/-! `setCursor` -/

@[simp] theorem State.setCursor_board (s : State) (v : Int) : (s.setCursor v).board = s.board := rfl
@[simp] theorem State.setCursor_data (s : State) (v : Int) : (s.setCursor v).data = s.data := rfl
@[simp] theorem State.setCursor_latch (s : State) (v : Int) : (s.setCursor v).latch = s.latch := rfl
@[simp] theorem State.setCursor_clock (s : State) (v : Int) : (s.setCursor v).clock = s.clock := rfl
@[simp] theorem State.setCursor_outputEnable (s : State) (v : Int) : (s.setCursor v).outputEnable = s.outputEnable := rfl
@[simp] theorem State.setCursor_cursor (s : State) (v : Int) : (s.setCursor v).cursor = v := rfl
@[simp] theorem State.setCursor_stationState (s : State) (v : Int) : (s.setCursor v).stationState = s.stationState := rfl
@[simp] theorem State.setCursor_initDone (s : State) (v : Int) : (s.setCursor v).initDone = s.initDone := rfl
@[simp] theorem State.setCursor_overrun (s : State) (v : Int) : (s.setCursor v).overrun = s.overrun := rfl
@[simp] theorem State.setCursor_pinLevel (s : State) (v : Int) : (s.setCursor v).pinLevel = s.pinLevel := rfl
@[simp] theorem State.setCursor_pinDir (s : State) (v : Int) : (s.setCursor v).pinDir = s.pinDir := rfl
@[simp] theorem State.setCursor_trace (s : State) (v : Int) : (s.setCursor v).trace = s.trace := rfl
@[simp] theorem State.setCursor_pending (s : State) (v : Int) : (s.setCursor v).pending = s.pending := rfl

/-! `setStationState` -/

@[simp] theorem State.setStationState_board (s : State) (v : List LogicLevel) : (s.setStationState v).board = s.board := rfl
@[simp] theorem State.setStationState_data (s : State) (v : List LogicLevel) : (s.setStationState v).data = s.data := rfl
@[simp] theorem State.setStationState_latch (s : State) (v : List LogicLevel) : (s.setStationState v).latch = s.latch := rfl
@[simp] theorem State.setStationState_clock (s : State) (v : List LogicLevel) : (s.setStationState v).clock = s.clock := rfl
@[simp] theorem State.setStationState_outputEnable (s : State) (v : List LogicLevel) : (s.setStationState v).outputEnable = s.outputEnable := rfl
@[simp] theorem State.setStationState_cursor (s : State) (v : List LogicLevel) : (s.setStationState v).cursor = s.cursor := rfl
@[simp] theorem State.setStationState_stationState (s : State) (v : List LogicLevel) : (s.setStationState v).stationState = v := rfl
@[simp] theorem State.setStationState_initDone (s : State) (v : List LogicLevel) : (s.setStationState v).initDone = s.initDone := rfl
@[simp] theorem State.setStationState_overrun (s : State) (v : List LogicLevel) : (s.setStationState v).overrun = s.overrun := rfl
@[simp] theorem State.setStationState_pinLevel (s : State) (v : List LogicLevel) : (s.setStationState v).pinLevel = s.pinLevel := rfl
@[simp] theorem State.setStationState_pinDir (s : State) (v : List LogicLevel) : (s.setStationState v).pinDir = s.pinDir := rfl
@[simp] theorem State.setStationState_trace (s : State) (v : List LogicLevel) : (s.setStationState v).trace = s.trace := rfl
@[simp] theorem State.setStationState_pending (s : State) (v : List LogicLevel) : (s.setStationState v).pending = s.pending := rfl

/-! `setInitDone` -/

@[simp] theorem State.setInitDone_board (s : State) (v : Bool) : (s.setInitDone v).board = s.board := rfl
@[simp] theorem State.setInitDone_data (s : State) (v : Bool) : (s.setInitDone v).data = s.data := rfl
@[simp] theorem State.setInitDone_latch (s : State) (v : Bool) : (s.setInitDone v).latch = s.latch := rfl
@[simp] theorem State.setInitDone_clock (s : State) (v : Bool) : (s.setInitDone v).clock = s.clock := rfl
@[simp] theorem State.setInitDone_outputEnable (s : State) (v : Bool) : (s.setInitDone v).outputEnable = s.outputEnable := rfl
@[simp] theorem State.setInitDone_cursor (s : State) (v : Bool) : (s.setInitDone v).cursor = s.cursor := rfl
@[simp] theorem State.setInitDone_stationState (s : State) (v : Bool) : (s.setInitDone v).stationState = s.stationState := rfl
@[simp] theorem State.setInitDone_initDone (s : State) (v : Bool) : (s.setInitDone v).initDone = v := rfl
@[simp] theorem State.setInitDone_overrun (s : State) (v : Bool) : (s.setInitDone v).overrun = s.overrun := rfl
@[simp] theorem State.setInitDone_pinLevel (s : State) (v : Bool) : (s.setInitDone v).pinLevel = s.pinLevel := rfl
@[simp] theorem State.setInitDone_pinDir (s : State) (v : Bool) : (s.setInitDone v).pinDir = s.pinDir := rfl
@[simp] theorem State.setInitDone_trace (s : State) (v : Bool) : (s.setInitDone v).trace = s.trace := rfl
@[simp] theorem State.setInitDone_pending (s : State) (v : Bool) : (s.setInitDone v).pending = s.pending := rfl

/-! `setOverrun` -/

@[simp] theorem State.setOverrun_board (s : State) (v : Bool) : (s.setOverrun v).board = s.board := rfl
@[simp] theorem State.setOverrun_data (s : State) (v : Bool) : (s.setOverrun v).data = s.data := rfl
@[simp] theorem State.setOverrun_latch (s : State) (v : Bool) : (s.setOverrun v).latch = s.latch := rfl
@[simp] theorem State.setOverrun_clock (s : State) (v : Bool) : (s.setOverrun v).clock = s.clock := rfl
@[simp] theorem State.setOverrun_outputEnable (s : State) (v : Bool) : (s.setOverrun v).outputEnable = s.outputEnable := rfl
@[simp] theorem State.setOverrun_cursor (s : State) (v : Bool) : (s.setOverrun v).cursor = s.cursor := rfl
@[simp] theorem State.setOverrun_stationState (s : State) (v : Bool) : (s.setOverrun v).stationState = s.stationState := rfl
@[simp] theorem State.setOverrun_initDone (s : State) (v : Bool) : (s.setOverrun v).initDone = s.initDone := rfl
@[simp] theorem State.setOverrun_overrun (s : State) (v : Bool) : (s.setOverrun v).overrun = v := rfl
@[simp] theorem State.setOverrun_pinLevel (s : State) (v : Bool) : (s.setOverrun v).pinLevel = s.pinLevel := rfl
@[simp] theorem State.setOverrun_pinDir (s : State) (v : Bool) : (s.setOverrun v).pinDir = s.pinDir := rfl
@[simp] theorem State.setOverrun_trace (s : State) (v : Bool) : (s.setOverrun v).trace = s.trace := rfl
@[simp] theorem State.setOverrun_pending (s : State) (v : Bool) : (s.setOverrun v).pending = s.pending := rfl

/-! `setPinLevel` -/

@[simp] theorem State.setPinLevel_board (s : State) (v : PinTable LogicLevel) : (s.setPinLevel v).board = s.board := rfl
@[simp] theorem State.setPinLevel_data (s : State) (v : PinTable LogicLevel) : (s.setPinLevel v).data = s.data := rfl
@[simp] theorem State.setPinLevel_latch (s : State) (v : PinTable LogicLevel) : (s.setPinLevel v).latch = s.latch := rfl
@[simp] theorem State.setPinLevel_clock (s : State) (v : PinTable LogicLevel) : (s.setPinLevel v).clock = s.clock := rfl
@[simp] theorem State.setPinLevel_outputEnable (s : State) (v : PinTable LogicLevel) : (s.setPinLevel v).outputEnable = s.outputEnable := rfl
@[simp] theorem State.setPinLevel_cursor (s : State) (v : PinTable LogicLevel) : (s.setPinLevel v).cursor = s.cursor := rfl
@[simp] theorem State.setPinLevel_stationState (s : State) (v : PinTable LogicLevel) : (s.setPinLevel v).stationState = s.stationState := rfl
@[simp] theorem State.setPinLevel_initDone (s : State) (v : PinTable LogicLevel) : (s.setPinLevel v).initDone = s.initDone := rfl
@[simp] theorem State.setPinLevel_overrun (s : State) (v : PinTable LogicLevel) : (s.setPinLevel v).overrun = s.overrun := rfl
@[simp] theorem State.setPinLevel_pinLevel (s : State) (v : PinTable LogicLevel) : (s.setPinLevel v).pinLevel = v := rfl
@[simp] theorem State.setPinLevel_pinDir (s : State) (v : PinTable LogicLevel) : (s.setPinLevel v).pinDir = s.pinDir := rfl
@[simp] theorem State.setPinLevel_trace (s : State) (v : PinTable LogicLevel) : (s.setPinLevel v).trace = s.trace := rfl
@[simp] theorem State.setPinLevel_pending (s : State) (v : PinTable LogicLevel) : (s.setPinLevel v).pending = s.pending := rfl

/-! `setPinDir` -/

@[simp] theorem State.setPinDir_board (s : State) (v : PinTable PinMode) : (s.setPinDir v).board = s.board := rfl
@[simp] theorem State.setPinDir_data (s : State) (v : PinTable PinMode) : (s.setPinDir v).data = s.data := rfl
@[simp] theorem State.setPinDir_latch (s : State) (v : PinTable PinMode) : (s.setPinDir v).latch = s.latch := rfl
@[simp] theorem State.setPinDir_clock (s : State) (v : PinTable PinMode) : (s.setPinDir v).clock = s.clock := rfl
@[simp] theorem State.setPinDir_outputEnable (s : State) (v : PinTable PinMode) : (s.setPinDir v).outputEnable = s.outputEnable := rfl
@[simp] theorem State.setPinDir_cursor (s : State) (v : PinTable PinMode) : (s.setPinDir v).cursor = s.cursor := rfl
@[simp] theorem State.setPinDir_stationState (s : State) (v : PinTable PinMode) : (s.setPinDir v).stationState = s.stationState := rfl
@[simp] theorem State.setPinDir_initDone (s : State) (v : PinTable PinMode) : (s.setPinDir v).initDone = s.initDone := rfl
@[simp] theorem State.setPinDir_overrun (s : State) (v : PinTable PinMode) : (s.setPinDir v).overrun = s.overrun := rfl
@[simp] theorem State.setPinDir_pinLevel (s : State) (v : PinTable PinMode) : (s.setPinDir v).pinLevel = s.pinLevel := rfl
@[simp] theorem State.setPinDir_pinDir (s : State) (v : PinTable PinMode) : (s.setPinDir v).pinDir = v := rfl
@[simp] theorem State.setPinDir_trace (s : State) (v : PinTable PinMode) : (s.setPinDir v).trace = s.trace := rfl
@[simp] theorem State.setPinDir_pending (s : State) (v : PinTable PinMode) : (s.setPinDir v).pending = s.pending := rfl

/-! `setTrace` -/

@[simp] theorem State.setTrace_board (s : State) (v : List Event) : (s.setTrace v).board = s.board := rfl
@[simp] theorem State.setTrace_data (s : State) (v : List Event) : (s.setTrace v).data = s.data := rfl
@[simp] theorem State.setTrace_latch (s : State) (v : List Event) : (s.setTrace v).latch = s.latch := rfl
@[simp] theorem State.setTrace_clock (s : State) (v : List Event) : (s.setTrace v).clock = s.clock := rfl
@[simp] theorem State.setTrace_outputEnable (s : State) (v : List Event) : (s.setTrace v).outputEnable = s.outputEnable := rfl
@[simp] theorem State.setTrace_cursor (s : State) (v : List Event) : (s.setTrace v).cursor = s.cursor := rfl
@[simp] theorem State.setTrace_stationState (s : State) (v : List Event) : (s.setTrace v).stationState = s.stationState := rfl
@[simp] theorem State.setTrace_initDone (s : State) (v : List Event) : (s.setTrace v).initDone = s.initDone := rfl
@[simp] theorem State.setTrace_overrun (s : State) (v : List Event) : (s.setTrace v).overrun = s.overrun := rfl
@[simp] theorem State.setTrace_pinLevel (s : State) (v : List Event) : (s.setTrace v).pinLevel = s.pinLevel := rfl
@[simp] theorem State.setTrace_pinDir (s : State) (v : List Event) : (s.setTrace v).pinDir = s.pinDir := rfl
@[simp] theorem State.setTrace_trace (s : State) (v : List Event) : (s.setTrace v).trace = v := rfl
@[simp] theorem State.setTrace_pending (s : State) (v : List Event) : (s.setTrace v).pending = s.pending := rfl

/-! `setPending` -/

@[simp] theorem State.setPending_board (s : State) (v : List Byte) : (s.setPending v).board = s.board := rfl
@[simp] theorem State.setPending_data (s : State) (v : List Byte) : (s.setPending v).data = s.data := rfl
@[simp] theorem State.setPending_latch (s : State) (v : List Byte) : (s.setPending v).latch = s.latch := rfl
@[simp] theorem State.setPending_clock (s : State) (v : List Byte) : (s.setPending v).clock = s.clock := rfl
@[simp] theorem State.setPending_outputEnable (s : State) (v : List Byte) : (s.setPending v).outputEnable = s.outputEnable := rfl
@[simp] theorem State.setPending_cursor (s : State) (v : List Byte) : (s.setPending v).cursor = s.cursor := rfl
@[simp] theorem State.setPending_stationState (s : State) (v : List Byte) : (s.setPending v).stationState = s.stationState := rfl
@[simp] theorem State.setPending_initDone (s : State) (v : List Byte) : (s.setPending v).initDone = s.initDone := rfl
@[simp] theorem State.setPending_overrun (s : State) (v : List Byte) : (s.setPending v).overrun = s.overrun := rfl
@[simp] theorem State.setPending_pinLevel (s : State) (v : List Byte) : (s.setPending v).pinLevel = s.pinLevel := rfl
@[simp] theorem State.setPending_pinDir (s : State) (v : List Byte) : (s.setPending v).pinDir = s.pinDir := rfl
@[simp] theorem State.setPending_trace (s : State) (v : List Byte) : (s.setPending v).trace = s.trace := rfl
@[simp] theorem State.setPending_pending (s : State) (v : List Byte) : (s.setPending v).pending = v := rfl

/-! The reset state -/

@[simp] theorem State.resetFor_board (b : Board) : (State.resetFor b).board = b := rfl
@[simp] theorem State.resetFor_data (b : Board) : (State.resetFor b).data = .low := rfl
@[simp] theorem State.resetFor_latch (b : Board) : (State.resetFor b).latch = .low := rfl
@[simp] theorem State.resetFor_clock (b : Board) : (State.resetFor b).clock = .low := rfl
@[simp] theorem State.resetFor_outputEnable (b : Board) : (State.resetFor b).outputEnable = .low := rfl
@[simp] theorem State.resetFor_cursor (b : Board) : (State.resetFor b).cursor = (b.stationCount : Int) - 1 := rfl
@[simp] theorem State.resetFor_stationState (b : Board) : (State.resetFor b).stationState = List.replicate b.stationCount .low := rfl
@[simp] theorem State.resetFor_initDone (b : Board) : (State.resetFor b).initDone = false := rfl
@[simp] theorem State.resetFor_overrun (b : Board) : (State.resetFor b).overrun = false := rfl
@[simp] theorem State.resetFor_pinLevel (b : Board) : (State.resetFor b).pinLevel = [] := rfl
@[simp] theorem State.resetFor_pinDir (b : Board) : (State.resetFor b).pinDir = [] := rfl
@[simp] theorem State.resetFor_trace (b : Board) : (State.resetFor b).trace = [] := rfl
@[simp] theorem State.resetFor_pending (b : Board) : (State.resetFor b).pending = [] := rfl

end Sys2Proof.Machine
end

