-- ==== Sys2Proof/Laws/Ops.lean ====
section
/-! SUPPORT. What each shared operation can do, once: events, pin writes, the ascending loop, the commit, the once-only
initialisation, the capture and the excess clock write. -/
namespace Sys2Proof.Machine

/-! One event -/

theorem State.emit_eq (s : State) (e : Event) : s.emit e = { s with trace := s.trace ++ [e] } := rfl

theorem State.diag_eq (s : State) (d : Diagnostic) : s.diag d = { s with trace := s.trace ++ [.diag d] } := rfl

theorem State.respond_eq (s : State) (v : LogicLevel) : s.respond v = { s with trace := s.trace ++ [.readResp v] } := rfl

theorem State.memWrite_eq (s : State) (p : PhysPin) (v : LogicLevel) :
    s.memWrite p v = { s with trace := s.trace ++ [.pinWrite p v], pinLevel := s.pinLevel.write p v } := rfl

theorem State.dirSetOutput_eq (s : State) (p : PhysPin) :
    s.dirSetOutput p = { s with trace := s.trace ++ [.pinDir p .output], pinDir := s.pinDir.write p .output } := rfl

theorem State.rejectExcess_eq (s : State) :
    s.rejectExcess = { s with overrun := true, trace := s.trace ++ [.diag .cursorOverrun] } := rfl

/-! The ascending loop -/

@[simp] theorem forAscending_zero (body : State → Nat → State) (s : State) : forAscending 0 body s = s := rfl

theorem forAscending_succ (n : Nat) (body : State → Nat → State) (s : State) :
    forAscending (n + 1) body s = body (forAscending n body s) n := rfl

/-- What every turn of a loop keeps, the loop keeps. -/
theorem forAscending_keeps {P : State → Prop} {body : State → Nat → State} (h : ∀ s i, P s → P (body s i))
    (n : Nat) (s : State) (hs : P s) : P (forAscending n body s) := by
  induction n with
  | zero => exact hs
  | succ n ih => exact h _ _ ih

/-! Pin writes as one table update -/

/-- The levels of a list of events, written to a table oldest first. -/
def writeLevels (t : PinTable LogicLevel) : List Event → PinTable LogicLevel
  | [] => t
  | .pinWrite p v :: es => writeLevels (t.write p v) es
  | .pinDir _ _ :: es => writeLevels t es
  | .diag _ :: es => writeLevels t es
  | .readResp _ :: es => writeLevels t es

theorem writeLevels_append (t : PinTable LogicLevel) (as bs : List Event) :
    writeLevels t (as ++ bs) = writeLevels (writeLevels t as) bs := by
  induction as generalizing t with
  | nil => rfl
  | cons e es ih => cases e <;> exact ih _

/-- A table after a list of pin writes reads as the last write to the pin, or as before. -/
theorem writeLevels_read (es : List Event) (t : PinTable LogicLevel) (p : PhysPin) :
    (writeLevels t es).read p = (lastLevel es p).or (t.read p) := by
  induction es generalizing t with
  | nil => simp [writeLevels, lastLevel]
  | cons e es ih =>
    cases e with
    | pinWrite q v =>
      have ih := ih (t.write q v)
      by_cases h : q = p
      · subst h
        simp [writeLevels, ih, lastLevel, Event.levelFor, List.getLast?_cons]
      · simp [writeLevels, ih, lastLevel, Event.levelFor, PinTable.read_write, h, Ne.symm h]
    | pinDir _ _ => simpa [writeLevels, lastLevel, Event.levelFor] using ih t
    | diag _ => simpa [writeLevels, lastLevel, Event.levelFor] using ih t
    | readResp _ => simpa [writeLevels, lastLevel, Event.levelFor] using ih t

theorem writeLevels_wf (es : List Event) {t : PinTable LogicLevel} (h : t.wf) : (writeLevels t es).wf := by
  induction es generalizing t with
  | nil => exact h
  | cons e es ih =>
    cases e with
    | pinWrite p v => exact ih (PinTable.wf_write p v h)
    | pinDir _ _ => exact ih h
    | diag _ => exact ih h
    | readResp _ => exact ih h

/-- "The last level written" over two stretches of a trace: the later stretch decides where it writes the pin. -/
theorem lastLevel_append (as bs : List Event) (p : PhysPin) :
    lastLevel (as ++ bs) p = (lastLevel bs p).or (lastLevel as p) := by
  simp [lastLevel, List.getLast?_append]

/-! The commit -/

/-- The first `n` turns of the commit loop: the events of the first `n` stations, in ascending index, and their
levels. -/
theorem forAscending_driveStation (n : Nat) (s : State) :
    forAscending n State.driveStation s =
      { s with
        trace := s.trace ++ commitEvents (s.board.pinMap.take n) (s.stationState.take n)
        pinLevel := writeLevels s.pinLevel (commitEvents (s.board.pinMap.take n) (s.stationState.take n)) } := by
  induction n with
  | zero => simp [commitEvents, writeLevels]
  | succ n ih =>
    rw [forAscending_succ, ih]
    unfold State.driveStation State.physPin State.readStation
    simp only
    have key : commitEvents (s.board.pinMap.take (n + 1)) (s.stationState.take (n + 1)) =
        commitEvents (s.board.pinMap.take n) (s.stationState.take n) ++
          (match s.board.pinMap[n]?, s.stationState[n]? with
           | some p, some v => [Event.pinWrite p (negate v)]
           | _, _ => []) := by
      simp only [commitEvents, ← List.take_zipWith]
      rw [List.take_add_one, List.getElem?_zipWith]
      cases s.board.pinMap[n]? <;> cases s.stationState[n]? <;> simp
    cases hp : s.board.pinMap[n]? <;> cases hv : s.stationState[n]? <;>
      simp [hp, hv] at key <;> simp [key, State.memWrite_eq, writeLevels_append, writeLevels]

/-- Everything a commit does when the buffer has `N` entries (41_latch.md R86). -/
theorem State.commit_eq (s : State) (h : s.stationState.length = s.board.stationCount) :
    s.commit = { s with
      trace := s.trace ++ commitEvents s.board.pinMap s.stationState
      pinLevel := writeLevels s.pinLevel (commitEvents s.board.pinMap s.stationState) } := by
  have hz : commitEvents (s.board.pinMap.take s.board.stationCount) (s.stationState.take s.board.stationCount) =
      commitEvents s.board.pinMap s.stationState := by
    simp only [commitEvents, ← List.take_zipWith]
    exact List.take_of_length_le (by rw [List.length_zipWith]; omega)
  rw [State.commit, forAscending_driveStation, hz]

/-- A commit changes the trace and the pin levels and nothing else, in every state. -/
theorem State.commit_frame (s : State) : ∃ es, s.commit =
    { s with trace := s.trace ++ es, pinLevel := writeLevels s.pinLevel es } ∧
      es = commitEvents (s.board.pinMap.take s.board.stationCount) (s.stationState.take s.board.stationCount) :=
  ⟨_, forAscending_driveStation _ s, rfl⟩

/-! The once-only initialisation -/

/-- The direction requests of a list of pins, in order. -/
def outputEvents (ps : List PhysPin) : List Event := ps.map fun p => .pinDir p .output

/-- A table after a list of pins was asked to be outputs. -/
def writeOutputs (t : PinTable PinMode) : List PhysPin → PinTable PinMode
  | [] => t
  | p :: ps => writeOutputs (t.write p .output) ps

theorem writeOutputs_append (t : PinTable PinMode) (as bs : List PhysPin) :
    writeOutputs t (as ++ bs) = writeOutputs (writeOutputs t as) bs := by
  induction as generalizing t with
  | nil => rfl
  | cons p ps ih => exact ih _

theorem writeOutputs_read (ps : List PhysPin) (t : PinTable PinMode) (p : PhysPin) :
    (writeOutputs t ps).read p = if p ∈ ps then some .output else t.read p := by
  induction ps generalizing t with
  | nil => simp [writeOutputs]
  | cons q qs ih =>
    simp only [writeOutputs, ih, PinTable.read_write, List.mem_cons]
    by_cases h1 : p ∈ qs <;> by_cases h2 : p = q <;> simp [h1, h2]

theorem writeOutputs_wf (ps : List PhysPin) {t : PinTable PinMode} (h : t.wf) : (writeOutputs t ps).wf := by
  induction ps generalizing t with
  | nil => exact h
  | cons p ps ih => exact ih (PinTable.wf_write p .output h)

theorem forAscending_requestOutput (n : Nat) (s : State) :
    forAscending n State.requestOutput s =
      { s with
        trace := s.trace ++ outputEvents (s.board.pinMap.take n)
        pinDir := writeOutputs s.pinDir (s.board.pinMap.take n) } := by
  induction n with
  | zero => simp [outputEvents, writeOutputs]
  | succ n ih =>
    rw [forAscending_succ, ih]
    unfold State.requestOutput State.physPin
    simp only [List.take_add_one]
    cases hp : s.board.pinMap[n]? <;>
      simp [State.dirSetOutput_eq, outputEvents, writeOutputs_append, writeOutputs]

/-- Everything the once-only initialisation's requests do (43_other_read_mode.md R97). -/
theorem State.requestAllOutputs_eq (s : State) :
    s.requestAllOutputs = { s with
      trace := s.trace ++ outputEvents s.board.pinMap
      pinDir := writeOutputs s.pinDir s.board.pinMap } := by
  rw [State.requestAllOutputs, forAscending_requestOutput]
  simp [Board.mapLen]

theorem dirAsked_append (as bs : List Event) (p : PhysPin) :
    dirAsked (as ++ bs) p = (dirAsked bs p).or (dirAsked as p) := by
  unfold dirAsked
  by_cases h1 : Event.pinDir p .output ∈ bs <;> by_cases h2 : Event.pinDir p .output ∈ as <;> simp [h1, h2]

/-! The capture and the excess clock write -/

/-- Everything a capture does when the cursor names a station (42_clock.md R91, R93). -/
theorem State.capture_eq (s : State) (h : 0 ≤ s.cursor) :
    s.capture = { s with stationState := s.stationState.set s.cursor.toNat s.data, cursor := s.cursor - 1 } := by
  simp [State.capture, State.writeStation, h, State.setStationState, State.setCursor]

/-- The three cases of what CLK.H does once `clock` is stored (42_clock.md R92). -/
theorem State.sample_cases (s : State) :
    (s.qualifies = false ∧ s.sample = s) ∨
    (s.qualifies = true ∧ s.cursor = -1 ∧ s.sample = s.rejectExcess) ∨
    (s.qualifies = true ∧ s.cursor ≠ -1 ∧ s.sample = s.capture) := by
  unfold State.sample
  cases hq : s.qualifies
  · simp
  · by_cases hc : s.cursor = -1 <;> simp [hc]

@[simp] theorem State.qualifies_iff (s : State) :
    s.qualifies = true ↔ s.latch = .low ∧ s.outputEnable = .low := by simp [State.qualifies]

end Sys2Proof.Machine
end

