-- ==== Sys2Proof/Laws/Exec.lean ====
section
/-! SUPPORT. One equation for each meaning, a run taken apart, and what a command does to the stream of commands. -/
namespace Sys2Proof.Machine

@[simp] theorem exec_data (v : LogicLevel) (s : State) : exec (.data v) s = .next { s with data := v } := rfl
@[simp] theorem exec_dataa (v : LogicLevel) (s : State) : exec (.dataa v) s = .next { s with data := v } := rfl
@[simp] theorem exec_oe (v : LogicLevel) (s : State) : exec (.oe v) s = .next { s with outputEnable := v } := rfl
@[simp] theorem exec_clkL (s : State) : exec .clkL s = .next { s with clock := .low } := rfl
@[simp] theorem exec_latchL (s : State) :
    exec .latchL s = .next { s with latch := .low, cursor := (s.board.stationCount : Int) - 1 } := rfl
@[simp] theorem exec_wrxFive (v : LogicLevel) (s : State) :
    exec (.wrxFive v) s = .next { s with trace := s.trace ++ [.diag (.unrecognisedPin 5#3)] } := rfl
@[simp] theorem exec_wrxSixSeven (sel : Selector) (v : LogicLevel) (s : State) :
    exec (.wrxSixSeven sel v) s = .next { s with trace := s.trace ++ [.diag (.unrecognisedPin sel)] } := rfl
@[simp] theorem exec_read (v : BitVec 1) (sel : Selector) (s : State) :
    exec (.read v sel) s = .next { s with trace := s.trace ++ [.readResp .low] } := rfl
@[simp] theorem exec_rsvd (c : CommandWord) (s : State) :
    exec (.rsvd c) s = .next { s with trace := s.trace ++ [.diag (.reservedCommand c)] } := rfl

theorem exec_latchH (s : State) :
    exec .latchH s = .next (if s.latch = .low then (s.setLatch .high).commit else s.setLatch .high) := rfl
theorem exec_clkH (s : State) : exec .clkH s = .next (s.setClock .high).sample := rfl
theorem exec_mode (sel : Selector) (m : PinMode) (s : State) :
    exec (.mode sel m) s = .next (if s.initDone then s else s.requestAllOutputs.markInitDone) := rfl

/-- Everything LATCH.H can do, in every state, with the state it answers written out. -/
theorem exec_latchH_cases (s : State) :
    (s.latch = .high ∧ exec .latchH s = .next s) ∨
    (s.latch = .low ∧ ∃ es, es = commitEvents (s.board.pinMap.take s.board.stationCount)
        (s.stationState.take s.board.stationCount) ∧
      exec .latchH s = .next
        { s with latch := .high, trace := s.trace ++ es, pinLevel := writeLevels s.pinLevel es }) := by
  rw [exec_latchH]
  cases h : s.latch
  · right
    obtain ⟨es, e, he⟩ := (s.setLatch .high).commit_frame
    exact ⟨rfl, es, he, by rw [if_pos rfl, e]; rfl⟩
  · left
    refine ⟨rfl, ?_⟩
    rw [if_neg (by decide), State.setLatch, ← h]

/-- Everything CLK.H can do, in every state, with the state it answers written out (42_clock.md R92). -/
theorem exec_clkH_cases (s : State) :
    (¬ (s.latch = .low ∧ s.outputEnable = .low) ∧ exec .clkH s = .next { s with clock := .high }) ∨
    ((s.latch = .low ∧ s.outputEnable = .low) ∧ s.cursor = -1 ∧ exec .clkH s = .next
      { s with clock := .high, overrun := true, trace := s.trace ++ [.diag .cursorOverrun] }) ∨
    ((s.latch = .low ∧ s.outputEnable = .low) ∧ s.cursor ≠ -1 ∧ exec .clkH s = .next
      { s with clock := .high, cursor := s.cursor - 1,
               stationState := if 0 ≤ s.cursor then s.stationState.set s.cursor.toNat s.data else s.stationState }) := by
  rw [exec_clkH]
  rcases (s.setClock .high).sample_cases with ⟨hq, e⟩ | ⟨hq, hc, e⟩ | ⟨hq, hc, e⟩
  · refine .inl ⟨fun h => ?_, by rw [e]; rfl⟩
    rw [(State.qualifies_iff (s.setClock .high)).2 h] at hq
    cases hq
  · exact .inr (.inl ⟨(State.qualifies_iff _).1 hq, hc, by rw [e]; rfl⟩)
  · refine .inr (.inr ⟨(State.qualifies_iff _).1 hq, hc, ?_⟩)
    rw [e]
    unfold State.capture State.writeStation
    by_cases h0 : 0 ≤ s.cursor
    · rw [if_pos h0, if_pos (show 0 ≤ (s.setClock .high).cursor from h0)]; rfl
    · rw [if_neg h0, if_neg (show ¬ 0 ≤ (s.setClock .high).cursor from h0)]; rfl

/-- Everything MODE can do, in every state, with the state it answers written out. -/
theorem exec_mode_cases (sel : Selector) (m : PinMode) (s : State) :
    (s.initDone = true ∧ exec (.mode sel m) s = .next s) ∨
    (s.initDone = false ∧ exec (.mode sel m) s = .next
      { s with initDone := true, trace := s.trace ++ outputEvents s.board.pinMap,
               pinDir := writeOutputs s.pinDir s.board.pinMap }) := by
  rw [exec_mode, State.requestAllOutputs_eq]
  cases h : s.initDone
  · exact .inr ⟨rfl, rfl⟩
  · exact .inl ⟨rfl, rfl⟩

/-- No command reads the command stream or writes it, and every command answers a next state. -/
theorem exec_pending (i : Instr) (s : State) (p : List Byte) :
    ∃ t, exec i s = .next t ∧ exec i (s.setPending p) = .next (t.setPending p) ∧ t.pending = s.pending := by
  cases i with
  | latchH =>
    rcases exec_latchH_cases s with ⟨h, e⟩ | ⟨h, _, rfl, e⟩ <;>
      rcases exec_latchH_cases (s.setPending p) with ⟨h', e'⟩ | ⟨h', _, rfl, e'⟩
    all_goals first
      | exact ⟨_, e, e', rfl⟩
      | simp [h] at h'
  | clkH =>
    rcases exec_clkH_cases s with ⟨h, e⟩ | ⟨h, h2, e⟩ | ⟨h, h2, e⟩ <;>
      rcases exec_clkH_cases (s.setPending p) with ⟨h', e'⟩ | ⟨h', h2', e'⟩ | ⟨h', h2', e'⟩
    all_goals first
      | exact ⟨_, e, e', rfl⟩
      | exact absurd h' h
      | exact absurd h h'
      | exact absurd h2' h2
      | exact absurd h2 h2'
  | mode sel m =>
    rcases exec_mode_cases sel m s with ⟨h, e⟩ | ⟨h, e⟩ <;>
      rcases exec_mode_cases sel m (s.setPending p) with ⟨h', e'⟩ | ⟨h', e'⟩
    all_goals first
      | exact ⟨_, e, e', rfl⟩
      | simp [h] at h'
  | _ => exact ⟨_, rfl, rfl, rfl⟩

/-- A run of a list is a run of its first command and then of the rest. -/
theorem runCommands_cons {i : Instr} {is : List Instr} {s t : State} (h : exec i s = .next t) :
    runCommands (i :: is) s = runCommands is t := by simp [runCommands, h]

theorem runCommands_append (as bs : List Instr) (s : State) :
    runCommands (as ++ bs) s = match runCommands as s with
      | .next t => runCommands bs t
      | .fault f => .fault f
      | .refused r => .refused r := by
  induction as generalizing s with
  | nil => rfl
  | cons i is ih =>
    simp only [List.cons_append, runCommands]
    cases exec i s <;> simp [ih]

end Sys2Proof.Machine
end

