-- ==== Sys2Proof/Laws/PerInstr.lean ====
section
/-! SUPPORT. The family RoundTrip: a well-formed instruction is what its word decodes to, one lemma for each
constructor. -/
namespace Sys2Proof.Laws.RoundTrip

/-- The word of a well-formed instruction decodes to that instruction (30_encoding.md R65, R69). -/
def Statement (i : Instr) : Prop := i.wellFormed = true → decodeWord (encode i) = i

theorem data (v : LogicLevel) : Statement (.data v) := by cases v <;> exact fun _ => by decide
theorem latchL : Statement .latchL := fun _ => by decide
theorem latchH : Statement .latchH := fun _ => by decide
theorem clkL : Statement .clkL := fun _ => by decide
theorem clkH : Statement .clkH := fun _ => by decide
theorem oe (v : LogicLevel) : Statement (.oe v) := by cases v <;> exact fun _ => by decide
theorem dataa (v : LogicLevel) : Statement (.dataa v) := by cases v <;> exact fun _ => by decide
theorem wrxFive (v : LogicLevel) : Statement (.wrxFive v) := by cases v <;> exact fun _ => by decide
theorem wrxSixSeven (sel : Selector) (v : LogicLevel) : Statement (.wrxSixSeven sel v) := by
  cases v <;> unfold Statement <;> revert sel <;> decide
theorem read (v : BitVec 1) (sel : Selector) : Statement (.read v sel) := by
  unfold Statement; revert v sel; decide
theorem mode (sel : Selector) (m : PinMode) : Statement (.mode sel m) := by
  cases m <;> unfold Statement <;> revert sel <;> decide
theorem rsvd (c : CommandWord) : Statement (.rsvd c) := by unfold Statement; revert c; decide

end Sys2Proof.Laws.RoundTrip
end

