-- ==== Sys2Proof/Laws/WellFormed.lean ====
section
/-! SUPPORT. Each shared operation keeps a state well formed (10_state.md R36): the pin tables stay canonical and agree
with the trace, the cursor stays in range, the buffer keeps its length. -/
namespace Sys2Proof.Machine

/-- A state that differs from a well-formed one outside the fields R36 speaks of is well formed. -/
theorem State.WF.congr {s t : State} (h : s.WF) (hb : t.board = s.board) (hc : t.cursor = s.cursor)
    (hx : t.stationState.length = s.stationState.length) (hl : t.pinLevel = s.pinLevel) (hd : t.pinDir = s.pinDir)
    (ht : t.trace = s.trace) : t.WF where
  neg_one_le_cursor := by rw [hc]; exact h.neg_one_le_cursor
  cursor_le_top := by rw [hc, hb]; exact h.cursor_le_top
  stations_length := by rw [hx, hb]; exact h.stations_length
  pinLevel_canonical := by rw [hl]; exact h.pinLevel_canonical
  pinDir_canonical := by rw [hd]; exact h.pinDir_canonical
  pinLevel_agrees := by rw [hl, ht]; exact h.pinLevel_agrees
  pinDir_agrees := by rw [hd, ht]; exact h.pinDir_agrees

/-- An event that is neither a pin write nor a direction request keeps a state well formed. -/
theorem State.WF.emit {s : State} (h : s.WF) (e : Event) (hw : ∀ p, e.levelFor p = none) (hd : e.isPinDir = false) :
    (s.emit e).WF where
  neg_one_le_cursor := h.neg_one_le_cursor
  cursor_le_top := h.cursor_le_top
  stations_length := h.stations_length
  pinLevel_canonical := h.pinLevel_canonical
  pinDir_canonical := h.pinDir_canonical
  pinLevel_agrees := fun p => by
    have := h.pinLevel_agrees p
    simpa [State.emit, lastLevel, hw] using this
  pinDir_agrees := fun p => by
    have := h.pinDir_agrees p
    have hne : e ≠ .pinDir p .output := fun he => by simp [he, Event.isPinDir] at hd
    simpa [State.emit, dirAsked, Ne.symm hne] using this

theorem State.WF.diag {s : State} (h : s.WF) (d : Diagnostic) : (s.diag d).WF := h.emit _ (fun _ => rfl) rfl

theorem State.WF.respond {s : State} (h : s.WF) (v : LogicLevel) : (s.respond v).WF := h.emit _ (fun _ => rfl) rfl

theorem dirAsked_commitEvents (map : List PhysPin) (x : List LogicLevel) (p : PhysPin) :
    dirAsked (commitEvents map x) p = none := by
  have : Event.pinDir p .output ∉ commitEvents map x := fun h => by
    rw [commitEvents, ← List.map_uncurry_zip_eq_zipWith] at h
    obtain ⟨⟨a, b⟩, _, hab⟩ := List.mem_map.1 h
    simp [Function.uncurry] at hab
  simp [dirAsked, this]

theorem State.WF.commit {s : State} (h : s.WF) : s.commit.WF := by
  rw [State.commit_eq s h.stations_length]
  exact
    { neg_one_le_cursor := h.neg_one_le_cursor
      cursor_le_top := h.cursor_le_top
      stations_length := h.stations_length
      pinLevel_canonical := writeLevels_wf _ h.pinLevel_canonical
      pinDir_canonical := h.pinDir_canonical
      pinLevel_agrees := fun p => by
        simp only
        rw [writeLevels_read, lastLevel_append, h.pinLevel_agrees]
      pinDir_agrees := fun p => by
        simp only
        rw [dirAsked_append, dirAsked_commitEvents, h.pinDir_agrees]
        rfl }

theorem lastLevel_outputEvents (ps : List PhysPin) (p : PhysPin) : lastLevel (outputEvents ps) p = none := by
  simp [lastLevel, outputEvents, List.filterMap_map, Function.comp_def, Event.levelFor]

theorem dirAsked_outputEvents (ps : List PhysPin) (p : PhysPin) :
    dirAsked (outputEvents ps) p = if p ∈ ps then some .output else none := by
  simp [dirAsked, outputEvents]

theorem State.WF.requestAllOutputs {s : State} (h : s.WF) : s.requestAllOutputs.WF := by
  rw [State.requestAllOutputs_eq]
  exact
    { neg_one_le_cursor := h.neg_one_le_cursor
      cursor_le_top := h.cursor_le_top
      stations_length := h.stations_length
      pinLevel_canonical := h.pinLevel_canonical
      pinDir_canonical := writeOutputs_wf _ h.pinDir_canonical
      pinLevel_agrees := fun p => by
        simp only
        rw [lastLevel_append, lastLevel_outputEvents, h.pinLevel_agrees]
        rfl
      pinDir_agrees := fun p => by
        simp only
        rw [writeOutputs_read, dirAsked_append, dirAsked_outputEvents, h.pinDir_agrees]
        split <;> rfl }

theorem State.WF.rejectExcess {s : State} (h : s.WF) : s.rejectExcess.WF :=
  State.WF.diag (s := s.setOverrun true) (h.congr rfl rfl rfl rfl rfl rfl) _

theorem State.WF.capture {s : State} (h : s.WF) (hc : s.cursor ≠ -1) : s.capture.WF := by
  have h0 := h.neg_one_le_cursor
  have h1 := h.cursor_le_top
  rw [State.capture_eq s (by omega)]
  exact
    { neg_one_le_cursor := by simp only; omega
      cursor_le_top := by simp only; omega
      stations_length := by simpa using h.stations_length
      pinLevel_canonical := h.pinLevel_canonical
      pinDir_canonical := h.pinDir_canonical
      pinLevel_agrees := h.pinLevel_agrees
      pinDir_agrees := h.pinDir_agrees }

theorem State.WF.sample {s : State} (h : s.WF) : s.sample.WF := by
  rcases s.sample_cases with ⟨_, e⟩ | ⟨_, _, e⟩ | ⟨_, hc, e⟩ <;> rw [e]
  · exact h
  · exact h.rejectExcess
  · exact h.capture hc

theorem State.WF.setPending {s : State} (h : s.WF) (bs : List Byte) : (s.setPending bs).WF :=
  h.congr rfl rfl rfl rfl rfl rfl

end Sys2Proof.Machine
end

