-- ==== Sys2Proof/Laws/Step.lean ====
section
/-! SUPPORT. What one step can do, said once, and runs of steps. -/
namespace Sys2Proof.Machine

/-- A step holds the state, or carries out the command it decodes, or refuses a byte that is no command word. -/
theorem step_cases (s : State) :
    (s.pending = [] ∧ step s = .next s) ∨
    (∃ b rest, s.pending = b :: rest ∧
      ((∃ i, decodeCarrier b = .ok i ∧ decode s.pending = .ok (i, rest) ∧ step s = exec i (s.setPending rest)) ∨
       (decodeCarrier b = .error .carrierUpperBits ∧ step s = .refused (.notACommandWord b)))) := by
  unfold step State.fetch
  cases hp : s.pending with
  | nil => left; simp
  | cons b rest =>
    right
    refine ⟨b, rest, rfl, ?_⟩
    by_cases hb : b.extractLsb' 6 2 = 0#2
    · left; exact ⟨decodeWord (b.extractLsb' 0 6), by simp [decodeCarrier, hb], by simp [decode, decodeCarrier, hb],
        by simp [decode, decodeCarrier, hb]⟩
    · right; exact ⟨by simp [decodeCarrier, hb], by simp [decode, decodeCarrier, hb]⟩

/-- What is kept by every command, and by taking a byte off the stream, is kept by a step. -/
theorem step_keeps {P : State → State → Prop} (hold : ∀ s, P s s)
    (cmd : ∀ (s t : State) (i : Instr) (rest : List Byte), exec i (s.setPending rest) = .next t → P s t)
    {s t : State} (h : step s = .next t) : P s t := by
  rcases step_cases s with ⟨_, e⟩ | ⟨b, rest, _, ⟨i, _, _, e⟩ | ⟨_, e⟩⟩ <;> rw [e] at h
  · cases h; exact hold s
  · exact cmd s t i rest h
  · cases h

/-- What every step keeps, every run keeps. -/
theorem run_keeps {P : State → Prop} (hstep : ∀ s t, P s → step s = .next t → P t) :
    ∀ (n : Nat) (s t : State), P s → Sys2Proof.core.run n s = .next t → P t
  | 0, s, t, hs, h => by cases h; exact hs
  | n + 1, s, t, hs, h => by
    simp only [Host.Core.run] at h
    cases hu : step s with
    | next u =>
      rw [show Sys2Proof.core.step s = step s from rfl, hu] at h
      exact run_keeps hstep n u t (hstep s u hs hu) h
    | fault f => cases f
    | refused r =>
      rw [show Sys2Proof.core.step s = step s from rfl, hu] at h
      cases h

/-- One more step at the front of a run. -/
theorem run_succ {n : Nat} {s u : State} (h : step s = .next u) :
    Sys2Proof.core.run (n + 1) s = Sys2Proof.core.run n u := by
  simp only [Host.Core.run]
  rw [show Sys2Proof.core.step s = step s from rfl, h]

/-- The carrier byte of a word decodes to the word's command. -/
theorem decodeCarrier_carrierOfWord (c : CommandWord) : decodeCarrier (carrierOfWord c) = .ok (decodeWord c) := by
  have h1 : (carrierOfWord c).extractLsb' 6 2 = 0#2 := by revert c; decide
  have h2 : (carrierOfWord c).extractLsb' 0 6 = c := by revert c; decide
  simp [decodeCarrier, h1, h2]

end Sys2Proof.Machine
end

