-- ==== Sys2Proof/Tests/Slice0.lean ====
section
/-! SUPPORT. Tests: the well-formedness smoke, words written out bit by bit, single steps from 95_test_vectors.md, and a
witness for the hypotheses of each statement that has some. -/
namespace Sys2Proof.Tests
open Sys2Proof.Machine

/-! ## Helpers: the boards and states of 95_test_vectors.md (P0, P1, P2 are the pins 10, 11, 12) -/

/-- `N = 3`, `MAP_LEN = 3`. -/
def board3 : Board := { stationCount := 3, pinMap := [10, 11, 12] }
/-- `N = 2`, `MAP_LEN = 3`. -/
def board2of3 : Board := { stationCount := 2, pinMap := [10, 11, 12] }
/-- `N = 3`, map `[P0, P1, P0]`. -/
def boardShared : Board := { stationCount := 3, pinMap := [10, 11, 10] }

/-- The state `(data, latch, clock, outputEnable, cursor, stationState)` of 95_test_vectors.md on a board, with nothing
emitted. -/
def state (b : Board) (data latch clock outputEnable : LogicLevel) (cursor : Int) (stations : List LogicLevel) : State :=
  { State.resetFor b with data := data, latch := latch, clock := clock, outputEnable := outputEnable, cursor := cursor, stationState := stations }

/-- What a vector of 95_test_vectors.md shows of a state: the tuple and the events appended. -/
structure View where
  data : LogicLevel
  latch : LogicLevel
  clock : LogicLevel
  outputEnable : LogicLevel
  cursor : Int
  stations : List LogicLevel
  trace : List Event
  deriving DecidableEq, Repr

/-- One word, fetched and run. -/
def oneStep (w : Nat) (s : State) : Option View :=
  match step (s.withFetchWord 8 w) with
  | .next t => some ⟨t.data, t.latch, t.clock, t.outputEnable, t.cursor, t.stationState, t.trace⟩
  | .fault _ => none
  | .refused _ => none

/-- Why a configuration is refused. -/
def boardRefusal (x : Except BoardError Board) : Option BoardError :=
  match x with
  | .ok _ => none
  | .error e => some e

/-- A state with nothing emitted is well formed when its cursor and its buffer are in range. -/
theorem state_wf (b : Board) (d l c o : LogicLevel) {k : Int} {x : List LogicLevel} (h1 : -1 ≤ k)
    (h2 : k ≤ (b.stationCount : Int) - 1) (h3 : x.length = b.stationCount) : (state b d l c o k x).WF :=
  ⟨h1, h2, h3, PinTable.wf_nil, PinTable.wf_nil, fun _ => rfl, fun _ => rfl⟩

/-! ## Well-formedness smoke: an ill-formed term for each check -/

theorem test_wrxSixSeven_five_illFormed : (Instr.wrxSixSeven 5#3 .high).wellFormed = false := by decide
theorem test_wrxSixSeven_zero_illFormed : (Instr.wrxSixSeven 0#3 .low).wellFormed = false := by decide
theorem test_rsvd_write_word_illFormed : (Instr.rsvd 0x0F#6).wellFormed = false := by decide
theorem test_rsvd_mode_word_illFormed : (Instr.rsvd 0x2F#6).wellFormed = false := by decide

/-- A configuration outside R9 and R10 is refused by name. -/
theorem test_board_no_stations : boardRefusal (boardOfParameters 0 [10] 0 1 2 3 4) = some .noStations := by decide
theorem test_board_short_map : boardRefusal (boardOfParameters 2 [10] 0 1 2 3 4) = some .moreStationsThanMapEntries := by decide
theorem test_board_equal_pins : boardRefusal (boardOfParameters 1 [10] 0 1 2 3 0) = some .pinIdentifiersNotDistinct := by decide

/-! ## Decoding: words written out from 30_encoding.md R60 to R65 as `op v sel` -/

theorem test_decode_data : decodeTableWord 8 0b001000 = some (.data .high) := by decide
theorem test_decode_latchL : decodeTableWord 8 0b000001 = some .latchL := by decide
theorem test_decode_latchH : decodeTableWord 8 0b001001 = some .latchH := by decide
theorem test_decode_clkL : decodeTableWord 8 0b000010 = some .clkL := by decide
theorem test_decode_clkH : decodeTableWord 8 0b001010 = some .clkH := by decide
theorem test_decode_oe : decodeTableWord 8 0b001011 = some (.oe .high) := by decide
theorem test_decode_dataa : decodeTableWord 8 0b000100 = some (.dataa .low) := by decide
theorem test_decode_wrxFive : decodeTableWord 8 0b001101 = some (.wrxFive .high) := by decide
theorem test_decode_wrxSixSeven : decodeTableWord 8 0b000110 = some (.wrxSixSeven 6#3 .low) := by decide
theorem test_decode_read : decodeTableWord 8 0b011011 = some (.read 1#1 3#3) := by decide
theorem test_decode_mode : decodeTableWord 8 0b100001 = some (.mode 1#3 .input) := by decide
theorem test_decode_rsvd : decodeTableWord 8 0b111111 = some (.rsvd 0b111111#6) := by decide
/-- V-E17: 0x40 and above is not a command word. -/
theorem test_decode_above_word : decodeTableWord 8 0x40 = none ∧ decode [0xFF#8] = .error .carrierUpperBits := ⟨by decide, rfl⟩
/-- The rows of the opcode map do not overlap and cover every word. -/
theorem test_rows_disjoint : ∀ c : CommandWord, (rowsOf c).length = 1 := by decide

/-! ## Single steps from 95_test_vectors.md -/

theorem test_VD3_data : oneStep 0x00 (state board3 .high .high .high .high (-1) [.high, .low, .high]) =
    some ⟨.low, .high, .high, .high, -1, [.high, .low, .high], []⟩ := by decide
theorem test_VD5_dataa : oneStep 0x04 (state board3 .high .low .low .low 2 [.low, .low, .low]) =
    some ⟨.low, .low, .low, .low, 2, [.low, .low, .low], []⟩ := by decide
theorem test_VO2_oe : oneStep 0x03 (state board3 .high .high .high .high (-1) [.high, .low, .high]) =
    some ⟨.high, .high, .high, .low, -1, [.high, .low, .high], []⟩ := by decide
theorem test_VL1_latchL : oneStep 0x01 (state board3 .high .high .high .low (-1) [.high, .low, .high]) =
    some ⟨.high, .low, .high, .low, 2, [.high, .low, .high], []⟩ := by decide
theorem test_VL8_latchH_drives_N_only : oneStep 0x09 (state board2of3 .low .low .high .low (-1) [.high, .low]) =
    some ⟨.low, .high, .high, .low, -1, [.high, .low], [.pinWrite 10 .low, .pinWrite 11 .high]⟩ := by decide
theorem test_VL7_latchH_no_double_commit : oneStep 0x09 (state board3 .high .high .high .low 2 [.high, .low, .high]) =
    some ⟨.high, .high, .high, .low, 2, [.high, .low, .high], []⟩ := by decide
theorem test_VK1_clkL : oneStep 0x02 (state board3 .high .low .high .low 1 [.low, .low, .high]) =
    some ⟨.high, .low, .low, .low, 1, [.low, .low, .high], []⟩ := by decide
theorem test_VK4_clkH_last_station : oneStep 0x0A (state board3 .high .low .low .low 0 [.low, .low, .high]) =
    some ⟨.high, .low, .high, .low, -1, [.high, .low, .high], []⟩ := by decide
theorem test_VK5_clkH_overrun : oneStep 0x0A (state board3 .high .low .low .low (-1) [.high, .low, .high]) =
    some ⟨.high, .low, .high, .low, -1, [.high, .low, .high], [.diag .cursorOverrun]⟩ := by decide
theorem test_VX2_wrxFive : oneStep 0x05 (state board3 .high .low .high .low 1 [.low, .low, .high]) =
    some ⟨.high, .low, .high, .low, 1, [.low, .low, .high], [.diag (.unrecognisedPin 5#3)]⟩ := by decide
theorem test_VX1_wrxSixSeven : oneStep 0x0F (state board3 .high .low .high .low 1 [.low, .low, .high]) =
    some ⟨.high, .low, .high, .low, 1, [.low, .low, .high], [.diag (.unrecognisedPin 7#3)]⟩ := by decide
theorem test_VR2_read : oneStep 0x1B (state board3 .high .high .high .high (-1) [.high, .high, .high]) =
    some ⟨.high, .high, .high, .high, -1, [.high, .high, .high], [.readResp .low]⟩ := by decide
theorem test_VM4_mode_covers_the_map : oneStep 0x28 (State.resetFor board2of3) =
    some ⟨.low, .low, .low, .low, 1, [.low, .low],
      [.pinDir 10 .output, .pinDir 11 .output, .pinDir 12 .output]⟩ := by decide
theorem test_VM2_mode_once : oneStep 0x21 ((State.resetFor board3).setInitDone true) =
    some ⟨.low, .low, .low, .low, 2, [.low, .low, .low], []⟩ := by decide
theorem test_VV2_rsvd : oneStep 0x3F (State.resetFor board3) =
    some ⟨.low, .low, .low, .low, 2, [.low, .low, .low], [.diag (.reservedCommand 0x3F#6)]⟩ := by decide
/-- V-L9: on the map `[P0, P1, P0]` the later write decides `pinLevel[P0]`, and the table stays in canonical form. -/
theorem test_VL9_later_write_wins :
    (state boardShared .high .low .high .low (-1) [.high, .low, .low]).commit.pinLevel = [(10, .high), (11, .high)] := by
  decide

/-! ## Assembler text (30_encoding.md R71, R72; the words of 95_test_vectors.md P1 and P6) -/

theorem test_assemble_P1 : assemble "FRAME 101 ; the example of P1" =
    some [0x01#6, 0x08#6, 0x02#6, 0x0A#6, 0x00#6, 0x02#6, 0x0A#6, 0x08#6, 0x02#6, 0x0A#6, 0x09#6] := by decide
theorem test_assemble_P6 : assemble "LATCH 1\nWRX 7, 1\nREAD 5\n.word 0x1B\nMODE 7, 1\n\n.word 0x3F\nDATAA 1" =
    some [0x09#6, 0x0F#6, 0x15#6, 0x1B#6, 0x2F#6, 0x3F#6, 0x0C#6] := by decide
theorem test_assemble_refuses : assemble "WRX 4, 1" = none ∧ assemble "DATA 2" = none ∧ assemble ".word 0x40" = none := by
  decide

/-! ## Witnesses: hypotheses of the statements, met together -/

/-- A well-formed state with commands presented: DATA 1, CLK.H. -/
def presented : State := (State.resetFor board3).presentWords [0x08#6, 0x0A#6]

theorem presented_wf : presented.WF :=
  (state_wf board3 .low .low .low .low (k := 2) (x := [.low, .low, .low]) (by decide) (by decide) (by decide)).setPending _

/-- A mid-sequence state, latch Low, enabled. -/
def shifting : State := state board3 .high .low .low .low 2 [.low, .low, .low]
theorem shifting_wf : shifting.WF := state_wf _ _ _ _ _ (by decide) (by decide) (by decide)
/-- The full buffer, latch Low, enabled. -/
def full : State := state board3 .high .low .low .low (-1) [.high, .low, .high]
theorem full_wf : full.WF := state_wf _ _ _ _ _ (by decide) (by decide) (by decide)
/-- The full buffer, committed. -/
def committed : State := full.commit.setLatch .high
theorem committed_wf : committed.WF := State.WF.congr full_wf.commit rfl rfl rfl rfl rfl rfl

theorem witness_EveryStepKeepsStatesWellFormed : presented.WF ∧ ∃ t, step presented = .next t :=
  ⟨presented_wf, _, rfl⟩
theorem witness_CursorStaysInRangeAlongEveryRun : presented.WF ∧ ∃ t, Sys2Proof.core.run 2 presented = .next t :=
  ⟨presented_wf, _, rfl⟩
theorem witness_BoardIsTheSameAlongEveryRun : ∃ t, Sys2Proof.core.run 3 presented = .next t := ⟨_, rfl⟩
theorem witness_EveryWordDecodesByExactlyOneRow :
    0x08#6 &&& 0x37#6 = 0x00#6 ∧ 0x0B#6 &&& 0x37#6 = 0x03#6 ∧ 0x0C#6 &&& 0x37#6 = 0x04#6 ∧ 0x0D#6 &&& 0x37#6 = 0x05#6 ∧
    0x0F#6 &&& 0x36#6 = 0x06#6 ∧ 0x1F#6 &&& 0x30#6 = 0x10#6 ∧ 0x2F#6 &&& 0x30#6 = 0x20#6 ∧
    0x3F#6 &&& 0x30#6 = 0x30#6 := by decide
theorem witness_DecodeOfEncodeIsTheCommand : (Instr.wrxSixSeven 7#3 .high).wellFormed = true ∧
    (Instr.wrxSixSeven 6#3 .low).wellFormed = true ∧ (Instr.rsvd 0x30#6).wellFormed = true := by decide
theorem witness_CarrierBytesAreWordsWithZeroUpperBits :
    (((State.resetFor board3).setPending [0x3F#8]).pending = [0x3F#8] ∧ (0x3F#8).toNat < 64) ∧
    ((State.resetFor board3).setPending [0x40#8]).pending = [0x40#8] ∧ 64 ≤ (0x40#8).toNat := by decide
theorem witness_StepRunsTheDecodedCommand : decode presented.pending = .ok (.data .high, [0x0A#8]) ∧
    (State.resetFor board3).pending = [] := ⟨rfl, rfl⟩
theorem witness_StepsOnAWordStreamCarryOutItsCommands :
    presented.pending = [0x08#6].map carrierOfWord ++ [0x0A#8] := by decide
theorem witness_NoRunOfCommandWordsIsStopped : ∀ b ∈ presented.pending, b.toNat < 64 := by decide
theorem witness_CallsAssembleToTheirWords :
    (9 : PinNumber) ∉ [board3.pins.data, board3.pins.latch, board3.pins.clock, board3.pins.oe, board3.pins.dataAlt] := by
  decide
theorem witness_CallsBecomeTheirCommandsAndNeverAReservedWord :
    (-1 : PinNumber) ∉ [board3.pins.data, board3.pins.latch, board3.pins.clock, board3.pins.oe, board3.pins.dataAlt] := by
  decide
theorem witness_ReadAndModeIgnoreTheirOperands : (opField 0x10#6 = 0b01#2 ∧ opField 0x1F#6 = 0b01#2) ∧
    opField 0x20#6 = 0b10#2 ∧ opField 0x2F#6 = 0b10#2 := by decide
theorem witness_OeStoresItsLevelAndOnlyClkHReadsIt :
    Instr.latchH ≠ .clkH ∧ ∀ w, Instr.latchH ≠ .oe w := ⟨by decide, fun w => by cases w <;> decide⟩
theorem witness_LatchHighCommits_high : committed.latch = .high := rfl
theorem witness_LatchHighCommits_low : full.WF ∧ full.latch = .low ∧ 2 < full.board.stationCount ∧
    full.board.pinMap[2]? = some 12 ∧
    (∀ j, 2 < j → j < full.board.stationCount → full.board.pinMap[j]? ≠ some 12) ∧
    (9 : PhysPin) ∉ full.board.pinMap.take full.board.stationCount :=
  ⟨full_wf, rfl, by decide, by decide, fun j h1 h2 => absurd (show j < 3 from h2) (by omega), by decide⟩
theorem witness_LaterStationWinsASharedPin : ∃ s : State, s.WF ∧ s.latch = .low ∧ 0 < 2 ∧ 2 < s.board.stationCount ∧
    s.board.pinMap[0]? = some 10 ∧ s.board.pinMap[2]? = some 10 ∧
    (∀ k, 2 < k → k < s.board.stationCount → s.board.pinMap[k]? ≠ some 10) ∧ s.stationState[2]? = some .low :=
  ⟨state boardShared .high .low .high .low (-1) [.high, .low, .low], state_wf _ _ _ _ _ (by decide) (by decide) (by decide),
    rfl, by decide, by decide, by decide, by decide, fun k h1 h2 => absurd (show k < 3 from h2) (by omega), by decide⟩
theorem witness_ClkHigh_latch_high : committed.latch = .high ∨ committed.outputEnable = .high := .inl rfl
theorem witness_ClkHigh_enable_high : (shifting.setOutputEnable .high).latch = .high ∨
    (shifting.setOutputEnable .high).outputEnable = .high := .inr rfl
theorem witness_ClkHigh_overrun : full.latch = .low ∧ full.outputEnable = .low ∧ full.cursor = -1 := ⟨rfl, rfl, rfl⟩
theorem witness_ClkHigh_capture : shifting.WF ∧ shifting.latch = .low ∧ shifting.outputEnable = .low ∧
    shifting.cursor ≠ -1 ∧ ((2 : Nat) : Int) = shifting.cursor ∧ 2 < shifting.board.stationCount :=
  ⟨shifting_wf, rfl, rfl, by decide, rfl, by decide⟩
theorem witness_ClkHigh_capture_last : ∃ s : State, s.WF ∧ s.latch = .low ∧ s.outputEnable = .low ∧ s.cursor = 0 :=
  ⟨state board3 .high .low .low .low 0 [.low, .low, .high], state_wf _ _ _ _ _ (by decide) (by decide) (by decide),
    rfl, rfl, rfl⟩
theorem witness_ReadAlwaysRespondsLow : 0x10 ≤ (0x1F#6).toNat ∧ (0x1F#6).toNat ≤ 0x1F := by decide
theorem witness_FirstModeMakesEveryMappedPinAnOutput : (0x20 ≤ (0x20#6).toNat ∧ (0x20#6).toNat ≤ 0x2F) ∧
    ((State.resetFor board3).setInitDone true).initDone = true ∧ (State.resetFor board3).initDone = false ∧
    (12 : PhysPin) ∈ board3.pinMap ∧ (9 : PhysPin) ∉ board3.pinMap := by decide
theorem witness_ReservedWordOnlyRecordsADiagnostic : 0x30 ≤ (0x30#6).toNat := by decide
theorem witness_StationsAreWrittenByACaptureOnly : shifting.WF ∧ ∃ t, exec .clkH shifting = .next t ∧
    t.stationState[2]? ≠ shifting.stationState[2]? := ⟨shifting_wf, _, rfl, by decide⟩
theorem witness_InitDoneIsSetByModeAndReadByModeOnly : ∀ sel m, Instr.latchH ≠ .mode sel m :=
  fun _ _ h => by cases h
theorem witness_PhysicalPins_level : ∃ t, exec .latchH full = .next t ∧ t.pinLevel.read 11 ≠ full.pinLevel.read 11 :=
  ⟨_, rfl, by decide⟩
theorem witness_PhysicalPins_direction : ∃ t, exec (.mode 0#3 .input) full = .next t ∧
    t.pinDir.read 12 ≠ full.pinDir.read 12 := ⟨_, rfl, by decide⟩
theorem witness_RepeatedCommands_not_clkH : Instr.mode 0#3 .output ≠ .clkH := by decide
theorem witness_RepeatedCommands_not_qualifying : committed.latch = .high ∨ committed.outputEnable = .high := .inl rfl
theorem witness_RepeatedCommands_lowest_pair : ∃ s : State, s.WF ∧ s.latch = .low ∧ s.outputEnable = .low ∧
    s.cursor = ((0 : Nat) : Int) + 1 :=
  ⟨state board3 .high .low .low .low 1 [.low, .low, .high], state_wf _ _ _ _ _ (by decide) (by decide) (by decide),
    rfl, rfl, rfl⟩
theorem witness_RepeatedCommands_highest_pair : shifting.latch = .low ∧ shifting.outputEnable = .low ∧
    shifting.cursor = ((1 : Nat) : Int) + 1 := ⟨rfl, rfl, rfl⟩
theorem witness_RepeatedCommands_at_zero : ∃ s : State, s.latch = .low ∧ s.outputEnable = .low ∧
    (s.cursor = 0 ∨ s.cursor = -1) := ⟨state board3 .high .low .low .low 0 [.low, .low, .high], rfl, rfl, .inl rfl⟩
theorem witness_RepeatedCommands_at_the_end : full.latch = .low ∧ full.outputEnable = .low ∧
    (full.cursor = 0 ∨ full.cursor = -1) := ⟨rfl, rfl, .inr rfl⟩
theorem witness_StoredClockIsUnobservable : ∃ t, Sys2Proof.core.run 2 presented = .next t := ⟨_, rfl⟩
theorem witness_NothingIsCapturedWhileLatchIsHigh : committed.latch = .high ∧ .latchL ∉ [Instr.clkL, .clkH, .latchH] := by
  decide
theorem witness_NothingIsCapturedWhileOutputEnableIsHigh :
    (shifting.setOutputEnable .high).outputEnable = .high ∧ .oe .low ∉ [Instr.latchL, .clkH, .oe .high] := by decide
theorem witness_ExcessClockWritesAreRejectedOneByOne :
    full.latch = .low ∧ full.outputEnable = .low ∧ full.cursor = -1 := ⟨rfl, rfl, rfl⟩
theorem witness_StepsKeepARepeatedCommitRedundant :
    (committed.latch = .high → ∀ p, committed.commit.pinLevel.read p = committed.pinLevel.read p) ∧
    ∃ t, step (committed.presentWords [0x09#6]) = .next t :=
  ⟨fun _ p => by rw [show committed.commit.pinLevel = committed.pinLevel by decide], _, rfl⟩
theorem witness_StepsKeepTheInitialisationDoneOnce : ∃ s t : State,
    s.trace.filter Event.isPinDir = (if s.initDone then s.board.pinMap.map (fun p => .pinDir p .output) else []) ∧
    step s = .next t ∧ t.initDone = true :=
  ⟨(State.resetFor board3).presentWords [0x28#6], _, rfl, rfl, rfl⟩
theorem witness_ShiftSequenceFillsStationsFromTheTop : full.WF ∧
    .latchL ∉ [Instr.clkH, .data .low, .clkH, .clkH] ∧ .latchH ∉ [Instr.clkH, .data .low, .clkH, .clkH] ∧
    [LogicLevel.high, .low, .low] =
      sampledBits [Instr.clkH, .data .low, .clkH, .clkH] full.data full.outputEnable ∧
    [LogicLevel.high, .low, .low].length ≤ full.board.stationCount :=
  ⟨full_wf, by decide, by decide, by decide, by decide⟩
theorem witness_WholeFrameLandsFirstBitInHighestStation : full.WF ∧ full.outputEnable = .low ∧
    [LogicLevel.high, .low, .high].length = full.board.stationCount := ⟨full_wf, rfl, rfl⟩
theorem witness_BootSequenceEstablishesTheKnownState : full.WF ∧ full.initDone = false ∧ full.overrun = false ∧
    [LogicLevel.high, .low, .high].length = full.board.stationCount := ⟨full_wf, rfl, rfl, rfl⟩
theorem witness_LowThenHighDrivesThePatternAgain : committed.WF := committed_wf
theorem committed_drives_mapped : committed.DrivesMappedPinsOnly := fun _ h => by
  obtain ⟨e, he, rfl⟩ := PinTable.mem_of_read h
  exact (by decide : ∀ e ∈ committed.pinLevel, e.1 ∈ committed.board.pinMap.take committed.board.stationCount) e he
theorem witness_StepsDriveMappedPinsOnly : committed.DrivesMappedPinsOnly ∧
    ∃ t, step (committed.presentWords [0x01#6]) = .next t := ⟨committed_drives_mapped, _, rfl⟩
/-- What happened when every event of `committed` took effect and something else drove a pin outside the map. -/
def worldOk : List WorldEvent := committed.trace.map (.issued · true) ++ [.drivenByOther 9 .high]
theorem witness_PinLevelsAreRealUnderBackendOkOnly : committed.WF ∧ committed.DrivesMappedPinsOnly ∧
    issuedEvents worldOk = committed.trace ∧ BackendOk committed.board.pinMap worldOk ∧
    committed.pinLevel.read 10 = some .low :=
  ⟨committed_wf, committed_drives_mapped, by decide,
    ⟨fun e h => by simp [worldOk] at h, fun p v h => by
      simp only [worldOk, List.mem_append, List.mem_map] at h
      rcases h with ⟨_, _, h⟩ | h
      · cases h
      · simp only [List.mem_singleton, WorldEvent.drivenByOther.injEq] at h
        rw [h.1]; decide⟩, by decide⟩

end Sys2Proof.Tests
end

section
/-! PROOFS. The statements about the registers (10_state.md): the reset values, which command writes a control line, the
flag `overrun`, and the growth of the trace. -/
namespace Sys2Proof.Machine

/-! ## One equation for each case of LATCH.H, CLK.H and MODE

The case lemmas `exec_latchH_cases`, `exec_clkH_cases` and `exec_mode_cases` say which case holds of a state; the
equations here say what the command answers where the case is known. -/

/-- 41_latch.md R86: with `latch` High the command answers the state it was given. -/
theorem exec_latchH_of_high {s : State} (h : s.latch = .high) : exec .latchH s = .next s := by
  rcases exec_latchH_cases s with ⟨_, e⟩ | ⟨hl, _⟩
  · exact e
  · simp [h] at hl

/-- 41_latch.md R86: with `latch` Low the command commits the buffer. -/
theorem exec_latchH_of_low {s : State} (h : s.latch = .low) : exec .latchH s = .next
    { s with
      latch := .high
      trace := s.trace ++
        commitEvents (s.board.pinMap.take s.board.stationCount) (s.stationState.take s.board.stationCount)
      pinLevel := writeLevels s.pinLevel
        (commitEvents (s.board.pinMap.take s.board.stationCount) (s.stationState.take s.board.stationCount)) } := by
  rcases exec_latchH_cases s with ⟨hh, _⟩ | ⟨_, _, rfl, e⟩
  · simp [h] at hh
  · exact e

/-- 42_clock.md R91: without LATCH and OUTPUT_ENABLE both Low only the level of CLOCK is stored. -/
theorem exec_clkH_of_not_qualifies {s : State} (h : ¬ (s.latch = .low ∧ s.outputEnable = .low)) :
    exec .clkH s = .next { s with clock := .high } := by
  rcases exec_clkH_cases s with ⟨_, e⟩ | ⟨hq, _⟩ | ⟨hq, _⟩
  · exact e
  · exact absurd hq h
  · exact absurd hq h

/-- 42_clock.md R91: a qualifying command on a full buffer is the overrun (D8). -/
theorem exec_clkH_of_full {s : State} (hq : s.latch = .low ∧ s.outputEnable = .low) (hc : s.cursor = -1) :
    exec .clkH s = .next
      { s with clock := .high, overrun := true, trace := s.trace ++ [.diag .cursorOverrun] } := by
  rcases exec_clkH_cases s with ⟨hn, _⟩ | ⟨_, _, e⟩ | ⟨_, hne, _⟩
  · exact absurd hq hn
  · exact e
  · exact absurd hc hne

/-- 42_clock.md R91: a qualifying command on a buffer that is not full is a capture. -/
theorem exec_clkH_of_not_full {s : State} (hq : s.latch = .low ∧ s.outputEnable = .low) (hc : s.cursor ≠ -1) :
    exec .clkH s = .next
      { s with clock := .high, cursor := s.cursor - 1,
               stationState :=
                 if 0 ≤ s.cursor then s.stationState.set s.cursor.toNat s.data else s.stationState } := by
  rcases exec_clkH_cases s with ⟨hn, _⟩ | ⟨_, he, _⟩ | ⟨_, _, e⟩
  · exact absurd hq hn
  · exact absurd he hc
  · exact e

/-- 43_other_read_mode.md R97: a MODE after the first answers the state it was given. -/
theorem exec_mode_of_done (sel : Selector) (m : PinMode) {s : State} (h : s.initDone = true) :
    exec (.mode sel m) s = .next s := by
  rcases exec_mode_cases sel m s with ⟨_, e⟩ | ⟨hn, _⟩
  · exact e
  · simp [h] at hn

/-- 43_other_read_mode.md R97: the first MODE asks for every entry of the map to be an output. -/
theorem exec_mode_of_not_done (sel : Selector) (m : PinMode) {s : State} (h : s.initDone = false) :
    exec (.mode sel m) s = .next
      { s with initDone := true, trace := s.trace ++ outputEvents s.board.pinMap,
               pinDir := writeOutputs s.pinDir s.board.pinMap } := by
  rcases exec_mode_cases sel m s with ⟨hd, _⟩ | ⟨_, e⟩
  · simp [h] at hd
  · exact e

/-! ## The flag `overrun` -/

/-- 10_state.md R28: no command but CLK.H writes `overrun`. -/
theorem exec_overrun_of_ne_clkH {i : Instr} (hi : i ≠ .clkH) (s : State) :
    ∃ t, exec i s = .next t ∧ t.overrun = s.overrun := by
  cases i with
  | clkH => exact absurd rfl hi
  | latchH =>
    cases h : s.latch
    · exact ⟨_, exec_latchH_of_low h, rfl⟩
    · exact ⟨_, exec_latchH_of_high h, rfl⟩
  | mode sel m =>
    cases h : s.initDone
    · exact ⟨_, exec_mode_of_not_done sel m h, rfl⟩
    · exact ⟨_, exec_mode_of_done sel m h, rfl⟩
  | _ => exact ⟨_, rfl, rfl⟩

/-- 10_state.md R28: CLK.H leaves `overrun` true where it was true, and where it qualifies on a full buffer. -/
theorem exec_clkH_overrun (s : State) : ∃ t, exec .clkH s = .next t ∧
    (t.overrun = true ↔ s.overrun = true ∨ (s.latch = .low ∧ s.outputEnable = .low ∧ s.cursor = -1)) := by
  by_cases hq : s.latch = .low ∧ s.outputEnable = .low
  · by_cases hc : s.cursor = -1
    · exact ⟨_, exec_clkH_of_full hq hc, by simp [hq, hc]⟩
    · exact ⟨_, exec_clkH_of_not_full hq hc, by simp [hc]⟩
  · exact ⟨_, exec_clkH_of_not_qualifies hq, by simp [← and_assoc, hq]⟩

/-- 10_state.md R28: no command reads `overrun`. What it answers from a state in which the flag alone was replaced is
what it answers from the state itself, but for the flag. -/
theorem exec_setOverrun (i : Instr) (s : State) (f : Bool) :
    ∃ t g, exec i s = .next t ∧ exec i (s.setOverrun f) = .next (t.setOverrun g) := by
  cases i with
  | latchH =>
    cases h : s.latch
    · exact ⟨_, f, exec_latchH_of_low h, exec_latchH_of_low (s := s.setOverrun f) h⟩
    · exact ⟨_, f, exec_latchH_of_high h, exec_latchH_of_high (s := s.setOverrun f) h⟩
  | clkH =>
    by_cases hq : s.latch = .low ∧ s.outputEnable = .low
    · by_cases hc : s.cursor = -1
      · exact ⟨_, true, exec_clkH_of_full hq hc, exec_clkH_of_full (s := s.setOverrun f) hq hc⟩
      · exact ⟨_, f, exec_clkH_of_not_full hq hc, exec_clkH_of_not_full (s := s.setOverrun f) hq hc⟩
    · exact ⟨_, f, exec_clkH_of_not_qualifies hq, exec_clkH_of_not_qualifies (s := s.setOverrun f) hq⟩
  | mode sel m =>
    cases h : s.initDone
    · exact ⟨_, f, exec_mode_of_not_done sel m h, exec_mode_of_not_done sel m (s := s.setOverrun f) h⟩
    · exact ⟨_, f, exec_mode_of_done sel m h, exec_mode_of_done sel m (s := s.setOverrun f) h⟩
  | _ => exact ⟨_, f, rfl, rfl⟩

/-! ## The obligations -/

/-- Settles O1: the values the reset state is built from. -/
theorem resetLeavesTheListedValues : Obligations.ResetLeavesTheListedValues := by
  intro b
  have hlow : ∀ i, i < b.stationCount → (State.resetFor b).stationState[i]? = some .low := fun i hi => by
    simp [hi]
  exact ⟨rfl, rfl, rfl, rfl, rfl, List.length_replicate, hlow, rfl, rfl, rfl, fun _ => ⟨rfl, rfl⟩⟩

/-- Settles O32, by the commands: the answer of each is written out, and the four lines are read off it. -/
theorem controlLinesAreWrittenByTheirFamilyOnly : Obligations.ControlLinesAreWrittenByTheirFamilyOnly := by
  intro i s
  cases i with
  | latchH =>
    cases h : s.latch
    · exact ⟨_, exec_latchH_of_low h, rfl, rfl, rfl, rfl⟩
    · exact ⟨_, exec_latchH_of_high h, rfl, h, rfl, rfl⟩
  | clkH =>
    rcases exec_clkH_cases s with ⟨_, e⟩ | ⟨_, _, e⟩ | ⟨_, _, e⟩
    · exact ⟨_, e, rfl, rfl, rfl, rfl⟩
    · exact ⟨_, e, rfl, rfl, rfl, rfl⟩
    · exact ⟨_, e, rfl, rfl, rfl, rfl⟩
  | mode sel m =>
    rcases exec_mode_cases sel m s with ⟨_, e⟩ | ⟨_, e⟩
    · exact ⟨_, e, rfl, rfl, rfl, rfl⟩
    · exact ⟨_, e, rfl, rfl, rfl, rfl⟩
  | _ => exact ⟨_, rfl, rfl, rfl, rfl, rfl⟩

/-- Settles O36: CLK.H alone writes the flag, and no case of any command is chosen by it. -/
theorem overrunIsStickyAndReadByNothing : Obligations.OverrunIsStickyAndReadByNothing := by
  refine ⟨State.resetFor_overrun, fun i s => ?_, fun i s f => ?_⟩
  · by_cases hi : i = .clkH
    · subst hi
      obtain ⟨t, e, ht⟩ := exec_clkH_overrun s
      exact ⟨t, e, by simpa using ht⟩
    · obtain ⟨t, e, ht⟩ := exec_overrun_of_ne_clkH hi s
      exact ⟨t, e, by simp [ht, hi]⟩
  · obtain ⟨t, g, e, e'⟩ := exec_setOverrun i s f
    exact ⟨t, t.setOverrun g, e, e', rfl⟩

/-- Settles O37, by the commands: three of them choose their events by the state, the others append nothing or one
event. -/
theorem traceGrowsByEachCommandsOwnEvents : Obligations.TraceGrowsByEachCommandsOwnEvents := by
  refine ⟨State.resetFor_trace, fun i s => ?_⟩
  cases i with
  | latchH =>
    cases h : s.latch
    · exact ⟨_, _, exec_latchH_of_low h, rfl, rfl⟩
    · exact ⟨_, [], exec_latchH_of_high h, (List.append_nil _).symm, rfl⟩
  | clkH =>
    by_cases hq : s.latch = .low ∧ s.outputEnable = .low
    · by_cases hc : s.cursor = -1
      · exact ⟨_, _, exec_clkH_of_full hq hc, rfl, by simp [hq, hc]⟩
      · exact ⟨_, [], exec_clkH_of_not_full hq hc, (List.append_nil _).symm, by simp [hc]⟩
    · exact ⟨_, [], exec_clkH_of_not_qualifies hq, (List.append_nil _).symm, by simp [← and_assoc, hq]⟩
  | mode sel m =>
    cases h : s.initDone
    · exact ⟨_, _, exec_mode_of_not_done sel m h, rfl, rfl⟩
    · exact ⟨_, [], exec_mode_of_done sel m h, (List.append_nil _).symm, rfl⟩
  | wrxFive _ | wrxSixSeven _ _ | read _ _ | rsvd _ => exact ⟨_, _, rfl, rfl, rfl⟩
  | data _ | dataa _ | oe _ | latchL | clkL => exact ⟨_, [], rfl, (List.append_nil _).symm, rfl⟩

end Sys2Proof.Machine
end

section
/-! PROOFS. The statements about the encoding (30_encoding.md): the fields a mask picks out and the command they decode
to, and the selector of a pin. -/
namespace Sys2Proof.Machine

/-! ## Fields under a mask

A row of the opcode map is a mask and a pattern of whole words; the decoder looks at fields. -/

theorem opField_and (c m : CommandWord) : opField (c &&& m) = opField c &&& opField m := BitVec.extractLsb'_and

theorem selField_and (c m : CommandWord) : selField (c &&& m) = selField c &&& selField m := BitVec.extractLsb'_and

/-- A mask that covers `op` fixes `op` to the pattern's. -/
theorem opField_of_masked {c m p : CommandWord} (h : c &&& m = p) (hm : opField m = BitVec.allOnes 2) :
    opField c = opField p := by
  rw [← h, opField_and, hm, BitVec.and_allOnes]

/-- A mask that covers `sel` fixes `sel` to the pattern's. -/
theorem selField_of_masked {c m p : CommandWord} (h : c &&& m = p) (hm : selField m = BitVec.allOnes 3) :
    selField c = selField p := by
  rw [← h, selField_and, hm, BitVec.and_allOnes]

/-! ## The command of a word, by its `op` -/

theorem decodeWord_of_op_write {c : CommandWord} (h : opField c = 0b00#2) :
    decodeWord c = decodeWrite (levelOfBit (vField c)) (selField c) := by simp [decodeWord, h]

theorem decodeWord_of_op_read {c : CommandWord} (h : opField c = 0b01#2) :
    decodeWord c = .read (vField c) (selField c) := by simp [decodeWord, h]

theorem decodeWord_of_op_mode {c : CommandWord} (h : opField c = 0b10#2) :
    decodeWord c = .mode (selField c) (modeOfBit (vField c)) := by simp [decodeWord, h]

theorem decodeWord_of_op_reserved {c : CommandWord} (h : opField c = 0b11#2) : decodeWord c = .rsvd c := by
  simp [decodeWord, h]

/-- The mask 0x37 leaves `v` open only: it covers `op` and `sel`. -/
theorem decodeWord_of_write_row {c p : CommandWord} (h : c &&& 0x37#6 = p) (hp : opField p = 0b00#2) :
    decodeWord c = decodeWrite (levelOfBit (vField c)) (selField p) := by
  rw [decodeWord_of_op_write ((opField_of_masked h rfl).trans hp), selField_of_masked h rfl]

/-- 30_encoding.md R65, the second WRX row: the upper two bits of the selector are ones. -/
theorem decodeWrite_of_sel_high {sel : Selector} (h : sel &&& 6#3 = 6#3) (v : LogicLevel) :
    decodeWrite v sel = .wrxSixSeven sel v := by
  have hsel : sel = 6#3 ∨ sel = 7#3 := by revert sel; decide
  rcases hsel with rfl | rfl <;> rfl

/-- The mask 0x36 leaves `v` and the lowest bit of the selector open. -/
theorem decodeWord_of_wrxSixSeven_row {c : CommandWord} (h : c &&& 0x36#6 = 0x06#6) :
    decodeWord c = .wrxSixSeven (selField c) (levelOfBit (vField c)) := by
  have hsel : selField c &&& 6#3 = 6#3 := (selField_and c 0x36#6).symm.trans (congrArg selField h)
  rw [decodeWord_of_op_write (opField_of_masked h rfl), decodeWrite_of_sel_high hsel]

/-- 30_encoding.md R65: the table has 12 rows and there are 64 words, so each word's rows are computed. -/
theorem rowsOf_eq_row_decodeWord (c : CommandWord) : rowsOf c = [(decodeWord c).row] := by
  revert c; decide

/-! ## The selector of a pin -/

/-- Each identifier differs from those `sel_of` compares with before it (00_scope.md R9). -/
theorem pinIds_ne_earlier (ids : PinIds) :
    ids.latch ≠ ids.data ∧
    (ids.clock ≠ ids.data ∧ ids.clock ≠ ids.latch) ∧
    (ids.oe ≠ ids.data ∧ ids.oe ≠ ids.latch ∧ ids.oe ≠ ids.clock) ∧
    (ids.dataAlt ≠ ids.data ∧ ids.dataAlt ≠ ids.latch ∧ ids.dataAlt ≠ ids.clock ∧ ids.dataAlt ≠ ids.oe) := by
  have h := ids.distinct
  simp only [List.nodup_cons, List.mem_cons, not_or] at h
  obtain ⟨⟨h01, h02, h03, h04, -⟩, ⟨h12, h13, h14, -⟩, ⟨h23, h24, -⟩, ⟨h34, -⟩, -⟩ := h
  exact ⟨Ne.symm h01, ⟨Ne.symm h02, Ne.symm h12⟩, ⟨Ne.symm h03, Ne.symm h13, Ne.symm h23⟩,
    Ne.symm h04, Ne.symm h14, Ne.symm h24, Ne.symm h34⟩

@[simp] theorem selOf_data (ids : PinIds) : selOf ids ids.data = 0#3 := if_pos rfl

@[simp] theorem selOf_latch (ids : PinIds) : selOf ids ids.latch = 1#3 := by
  obtain ⟨hlatch, -, -, -⟩ := pinIds_ne_earlier ids
  simp [selOf, hlatch]

@[simp] theorem selOf_clock (ids : PinIds) : selOf ids ids.clock = 2#3 := by
  obtain ⟨-, hclock, -, -⟩ := pinIds_ne_earlier ids
  simp [selOf, hclock]

@[simp] theorem selOf_oe (ids : PinIds) : selOf ids ids.oe = 3#3 := by
  obtain ⟨-, -, hoe, -⟩ := pinIds_ne_earlier ids
  simp [selOf, hoe]

@[simp] theorem selOf_dataAlt (ids : PinIds) : selOf ids ids.dataAlt = 4#3 := by
  obtain ⟨-, -, -, hdataAlt⟩ := pinIds_ne_earlier ids
  simp [selOf, hdataAlt]

/-- 30_encoding.md R64: every pin that is none of the five has the selector 7. -/
theorem selOf_of_not_mem {ids : PinIds} {pin : PinNumber}
    (h : pin ∉ [ids.data, ids.latch, ids.clock, ids.oe, ids.dataAlt]) : selOf ids pin = 7#3 := by
  simp only [List.mem_cons, not_or] at h
  obtain ⟨hdata, hlatch, hclock, hoe, hdataAlt, -⟩ := h
  simp [selOf, hdata, hlatch, hclock, hoe, hdataAlt]

/-! ## The obligations -/

/-- Settles O7: the table's rows on each word, then for each row the fields its mask fixes. -/
theorem everyWordDecodesByExactlyOneRow : Obligations.EveryWordDecodesByExactlyOneRow := by
  refine ⟨rowsOf_eq_row_decodeWord, ?data, rfl, rfl, rfl, rfl, ?oe, ?dataa, ?wrxFive, ?wrxSixSeven, ?read, ?mode, ?rsvd⟩
  case data | oe | dataa | wrxFive => exact fun _ h => decodeWord_of_write_row h rfl
  case wrxSixSeven => exact fun _ h => decodeWord_of_wrxSixSeven_row h
  case read => exact fun _ h => decodeWord_of_op_read (opField_of_masked h rfl)
  case mode => exact fun _ h => decodeWord_of_op_mode (opField_of_masked h rfl)
  case rsvd => exact fun _ h => decodeWord_of_op_reserved (opField_of_masked h rfl)

/-- Settles O15: the words are the façade's own, and the identifiers are distinct, so each reaches its own selector. -/
theorem callsAssembleToTheirWords : Obligations.CallsAssembleToTheirWords :=
  ⟨fun _ _ _ _ => ⟨rfl, rfl, rfl⟩,
    fun ids => ⟨selOf_data ids, selOf_latch ids, selOf_clock ids, selOf_oe ids, selOf_dataAlt ids⟩,
    fun _ _ => selOf_of_not_mem, rfl, rfl, rfl, rfl⟩

/-- Settles O17: the field `op` alone picks the command, and its meaning does not look at the operands. -/
theorem readAndModeIgnoreTheirOperands : Obligations.ReadAndModeIgnoreTheirOperands := by
  intro c d s
  constructor
  · intro hc hd
    rw [decodeWord_of_op_read hc, decodeWord_of_op_read hd, exec_read, exec_read]
  · intro hc hd
    rw [decodeWord_of_op_mode hc, decodeWord_of_op_mode hd, exec_mode, exec_mode]

end Sys2Proof.Machine
end

section
/-! PROOFS. The statements about DATA, DATAA and OE (40_data_oe.md): what each stores, and which commands `outputEnable`
has no effect on. -/
namespace Sys2Proof.Machine

/-- A run of two commands, from what each of them answers. -/
theorem runCommands_pair {i j : Instr} {s t u : State} (hi : exec i s = .next t) (hj : exec j t = .next u) :
    runCommands [i, j] s = .next u := by
  rw [runCommands_cons hi, runCommands_cons hj, runCommands]

/-- 40_data_oe.md R82: no command but CLK.H and OE reads or writes `outputEnable`. What it answers from a state in which
that level alone was replaced is what it answers from the state itself, with the level replaced. -/
theorem exec_setOutputEnable {i : Instr} (hclkH : i ≠ .clkH) (hoe : ∀ w, i ≠ .oe w) (s : State) (v : LogicLevel) :
    ∃ t, exec i s = .next t ∧ exec i (s.setOutputEnable v) = .next (t.setOutputEnable v) := by
  cases i with
  | clkH => exact absurd rfl hclkH
  | oe w => exact absurd rfl (hoe w)
  | latchH =>
    cases h : s.latch
    · exact ⟨_, exec_latchH_of_low h, exec_latchH_of_low (s := s.setOutputEnable v) h⟩
    · exact ⟨_, exec_latchH_of_high h, exec_latchH_of_high (s := s.setOutputEnable v) h⟩
  | mode sel m =>
    cases h : s.initDone
    · exact ⟨_, exec_mode_of_not_done sel m h, exec_mode_of_not_done sel m (s := s.setOutputEnable v) h⟩
    · exact ⟨_, exec_mode_of_done sel m h, exec_mode_of_done sel m (s := s.setOutputEnable v) h⟩
  | data _ | dataa _ | latchL | clkL | wrxFive _ | wrxSixSeven _ _ | read _ _ | rsvd _ => exact ⟨_, rfl, rfl⟩

/-! ## The obligations -/

/-- Settles O20: its words, and the equation of DATA. -/
theorem dataStoresItsLevelAndNothingElse : Obligations.DataStoresItsLevelAndNothingElse :=
  ⟨rfl, rfl, exec_data⟩

/-- Settles O21: DATAA has the equation of DATA, so the second of the two overwrites what the first stored. -/
theorem dataaWritesTheSameRegisterAsData : Obligations.DataaWritesTheSameRegisterAsData := by
  refine ⟨rfl, rfl, exec_dataa, fun v w s => ⟨?dataThenDataa, ?dataaThenData⟩⟩
  case dataThenDataa => exact runCommands_pair (exec_data v s) (exec_dataa w _)
  case dataaThenData => exact runCommands_pair (exec_dataa v s) (exec_data w _)

/-- Settles O22: its words, the equation of OE, and that replacing `outputEnable` commutes with every other command but
CLK.H. -/
theorem oeStoresItsLevelAndOnlyClkHReadsIt : Obligations.OeStoresItsLevelAndOnlyClkHReadsIt :=
  ⟨rfl, rfl, exec_oe, fun _ v s hclkH hoe => exec_setOutputEnable hclkH hoe s v⟩

end Sys2Proof.Machine
end

section
/-! PROOFS. The statements about LATCH (41_latch.md): what LATCH.L sets, and the events of a commit with the level each
pin is left at. -/
namespace Sys2Proof.Machine

/-! ## The events of a commit, station by station -/

/-- 41_latch.md R86: event `i` of a commit drives the negation of station `i` onto pin `i` of the map. -/
theorem commitEvents_getElem? {map : List PhysPin} {x : List LogicLevel} {i : Nat} {p : PhysPin} {v : LogicLevel}
    (hp : map[i]? = some p) (hv : x[i]? = some v) : (commitEvents map x)[i]? = some (.pinWrite p (negate v)) := by
  simp [commitEvents, List.getElem?_zipWith, hp, hv]

/-- The level a commit leaves on a pin, from the first station on: a later station on the pin decides before it. -/
theorem lastLevel_commitEvents_cons (q : PhysPin) (map : List PhysPin) (w : LogicLevel) (x : List LogicLevel)
    (p : PhysPin) : lastLevel (commitEvents (q :: map) (w :: x)) p =
      (lastLevel (commitEvents map x) p).or (if q = p then some (negate w) else none) := by
  have hone : lastLevel [.pinWrite q (negate w)] p = if q = p then some (negate w) else none := by
    by_cases h : q = p <;> simp [lastLevel, Event.levelFor, h]
  rw [← hone]
  exact lastLevel_append [.pinWrite q (negate w)] (commitEvents map x) p

/-- 41_latch.md R86: a commit writes no pin outside the map. -/
theorem lastLevel_commitEvents_of_not_mem {map : List PhysPin} {p : PhysPin} (h : p ∉ map) (x : List LogicLevel) :
    lastLevel (commitEvents map x) p = none := by
  induction map generalizing x with
  | nil => rfl
  | cons q map ih =>
    obtain ⟨hq, hmap⟩ := not_or.1 (mt List.mem_cons.2 h)
    cases x with
    | nil => rfl
    | cons w x => rw [lastLevel_commitEvents_cons, ih hmap, if_neg (Ne.symm hq), Option.or_none]

/-- 20_memory.md R53: of several stations on one pin the last one's negated level is the level a commit leaves there. -/
theorem lastLevel_commitEvents_of_last {map : List PhysPin} {x : List LogicLevel} {i : Nat} {p : PhysPin}
    {v : LogicLevel} (hp : map[i]? = some p) (hv : x[i]? = some v) (hlast : ∀ j, i < j → map[j]? ≠ some p) :
    lastLevel (commitEvents map x) p = some (negate v) := by
  induction map generalizing x i with
  | nil => simp at hp
  | cons q map ih =>
    cases x with
    | nil => simp at hv
    | cons w x =>
      rw [lastLevel_commitEvents_cons]
      cases i with
      | zero =>
        obtain rfl : q = p := by simpa using hp
        obtain rfl : w = v := by simpa using hv
        have hmap : q ∉ map := fun hmem => by
          obtain ⟨j, hj⟩ := List.mem_iff_getElem?.1 hmem
          exact hlast (j + 1) (Nat.succ_pos j) hj
        rw [lastLevel_commitEvents_of_not_mem hmap, if_pos rfl, Option.none_or]
      | succ i => rw [ih hp hv fun j hij => hlast (j + 1) (Nat.succ_lt_succ hij), Option.some_or]

/-! ## The obligations -/

/-- Settles O23: its word, and the equation of LATCH.L. -/
theorem latchLowRearmsTheCursorAndNothingElse : Obligations.LatchLowRearmsTheCursorAndNothingElse :=
  ⟨rfl, exec_latchL⟩

/-- Settles O24: the two cases of LATCH.H; the events of a commit are read off station by station, and the level of a
pin is that of the last event on it. -/
theorem latchHighCommitsOnARisingChangeOnly : Obligations.LatchHighCommitsOnARisingChangeOnly := by
  refine ⟨rfl, rfl, rfl, fun s => exec_latchH_of_high, fun s hwf hlow => ?_⟩
  have hmap := s.board.stationCount_le_mapLen
  have hstations := hwf.stations_length
  refine ⟨_, _, exec_latchH_of_low hlow, ?length, fun i hi => ?station, fun p hp => ?otherPin⟩
  case length => simp [commitEvents, hstations, hmap]
  case station =>
    have hp := List.getElem?_eq_getElem (Nat.lt_of_lt_of_le hi hmap)
    have hv := List.getElem?_eq_getElem (Nat.lt_of_lt_of_eq hi hstations.symm)
    have hp' := (List.getElem?_take_of_lt hi).trans hp
    have hv' := (List.getElem?_take_of_lt hi).trans hv
    refine ⟨_, _, hp, hv, commitEvents_getElem? hp' hv', fun hlast => ?_⟩
    have hlast' : ∀ j, i < j → (s.board.pinMap.take s.board.stationCount)[j]? ≠ some s.board.pinMap[i] := by
      intro j hij
      rw [List.getElem?_take]
      split
      case isTrue hj => exact hlast j hij hj
      case isFalse => exact nofun
    rw [writeLevels_read, lastLevel_commitEvents_of_last hp' hv' hlast', Option.some_or]
  case otherPin => rw [writeLevels_read, lastLevel_commitEvents_of_not_mem hp, Option.none_or]

end Sys2Proof.Machine
end

section
/-! PROOFS. The statements about CLK (42_clock.md): what CLK.L stores, and the buffer after a capture, station by
station. -/
namespace Sys2Proof.Machine

/-! ## The capture of a well-formed state -/

/-- 10_state.md R24: `-1` is the only value of the cursor that names no station. -/
theorem State.WF.cursor_nonneg {s : State} (h : s.WF) (hc : s.cursor ≠ -1) : 0 ≤ s.cursor := by
  have := h.neg_one_le_cursor
  omega

/-- 42_clock.md R91: a qualifying command on a well-formed state whose buffer is not full stores `data` at the
cursor. -/
theorem exec_clkH_of_wf_not_full {s : State} (h : s.WF) (hq : s.latch = .low ∧ s.outputEnable = .low)
    (hc : s.cursor ≠ -1) : exec .clkH s = .next
      { s with clock := .high, stationState := s.stationState.set s.cursor.toNat s.data, cursor := s.cursor - 1 } := by
  rw [exec_clkH_of_not_full hq hc, if_pos (h.cursor_nonneg hc)]

/-- 42_clock.md R91: the stations after a capture are `data` at the cursor and as before everywhere else. -/
theorem State.WF.captured_getElem? {s : State} (h : s.WF) (hc : s.cursor ≠ -1) {i : Nat}
    (hi : i < s.board.stationCount) :
    (s.stationState.set s.cursor.toNat s.data)[i]? =
      if (i : Int) = s.cursor then some s.data else s.stationState[i]? := by
  have hcursor : s.cursor.toNat = i ↔ (i : Int) = s.cursor := by
    have := h.cursor_nonneg hc
    omega
  by_cases heq : (i : Int) = s.cursor
  · rw [if_pos heq, hcursor.2 heq, List.getElem?_set_self (Nat.lt_of_lt_of_eq hi h.stations_length.symm)]
  · rw [if_neg heq, List.getElem?_set_ne (mt hcursor.1 heq)]

/-! ## The obligations -/

/-- Settles O26: its word, and the equation of CLK.L. -/
theorem clkLowStoresLowAndNothingElse : Obligations.ClkLowStoresLowAndNothingElse :=
  ⟨rfl, exec_clkL⟩

/-- Settles O27: the equation of CLK.H in each of its three cases, and for the capture the buffer read station by
station. -/
theorem clkHighCapturesOrOverrunsOrOnlyStoresClock : Obligations.ClkHighCapturesOrOverrunsOrOnlyStoresClock := by
  refine ⟨rfl, fun s hhigh => ?onlyClock, fun s hlatch hoe => ?overrun, fun s hwf hlatch hoe hc => ?capture⟩
  case onlyClock =>
    refine exec_clkH_of_not_qualifies fun ⟨hlatch, hoe⟩ => ?_
    simp [hlatch, hoe] at hhigh
  case overrun => exact exec_clkH_of_full ⟨hlatch, hoe⟩
  case capture =>
    exact ⟨_, exec_clkH_of_wf_not_full hwf ⟨hlatch, hoe⟩ hc, List.length_set, fun i => hwf.captured_getElem? hc⟩

end Sys2Proof.Machine
end

section
/-! PROOFS. The statements about WRX, READ, MODE and the reserved words (43_other_read_mode.md): which words each has,
what each records, and the directions after the first MODE. -/
namespace Sys2Proof.Machine

/-! ## The words of a value of `op`

Each value of `op` has sixteen words in a row, its block in the numbers 0x00 to 0x3F. -/

/-- 30_encoding.md R60: `op` is what stands above the lower four bits. -/
theorem opField_toNat (c : CommandWord) : (opField c).toNat = c.toNat / 16 := by
  have hlt : c.toNat / 16 < 2 ^ 2 := Nat.div_lt_of_lt_mul c.isLt
  rw [opField, BitVec.extractLsb'_toNat, Nat.shiftRight_eq_div_pow, Nat.mod_eq_of_lt hlt]

/-- 30_encoding.md R65: a word between the ends of the block of `op` has that `op`. -/
theorem opField_of_block {c : CommandWord} {op : BitVec 2} (hlow : 16 * op.toNat ≤ c.toNat)
    (hhigh : c.toNat ≤ 16 * op.toNat + 15) : opField c = op := by
  apply BitVec.eq_of_toNat_eq
  rw [opField_toNat]
  omega

/-! ## The directions after the first MODE -/

/-- 43_other_read_mode.md R97: an asked pin is an output. -/
theorem writeOutputs_read_of_mem {ps : List PhysPin} {p : PhysPin} (h : p ∈ ps) (t : PinTable PinMode) :
    (writeOutputs t ps).read p = some .output := by
  rw [writeOutputs_read, if_pos h]

/-- 43_other_read_mode.md R97: a pin that is not asked keeps its direction. -/
theorem writeOutputs_read_of_not_mem {ps : List PhysPin} {p : PhysPin} (h : p ∉ ps) (t : PinTable PinMode) :
    (writeOutputs t ps).read p = t.read p := by
  rw [writeOutputs_read, if_neg h]

/-! ## The obligations -/

/-- Settles O30: its words are the block of `op` 10; a later MODE answers the state itself, and the first one's
directions are read off pin by pin. -/
theorem firstModeMakesEveryMappedPinAnOutput : Obligations.FirstModeMakesEveryMappedPinAnOutput := by
  refine ⟨fun c hlow hhigh => ?words, fun sel m s => exec_mode_of_done sel m, fun sel m s hfirst => ?first⟩
  case words => exact decodeWord_of_op_mode (opField_of_block hlow hhigh)
  case first =>
    exact ⟨_, exec_mode_of_not_done sel m hfirst, fun _ hp => writeOutputs_read_of_mem hp _,
      fun _ hp => writeOutputs_read_of_not_mem hp _⟩

/-- Settles O28: its six words, and the equations of the two rows of WRX. -/
theorem wrxOnlyRecordsADiagnostic : Obligations.WrxOnlyRecordsADiagnostic :=
  ⟨⟨rfl, rfl, rfl, rfl, rfl, rfl⟩, exec_wrxFive, exec_wrxSixSeven⟩

/-- Settles O29: its words are the block of `op` 01, and the equation of READ. -/
theorem readAlwaysRespondsLow : Obligations.ReadAlwaysRespondsLow :=
  ⟨fun _ hlow hhigh => decodeWord_of_op_read (opField_of_block hlow hhigh), exec_read⟩

/-- Settles O31: its words are the last block, that of `op` 11, and the equation of RSVD. -/
theorem reservedWordOnlyRecordsADiagnostic : Obligations.ReservedWordOnlyRecordsADiagnostic :=
  ⟨fun c hlow => decodeWord_of_op_reserved (opField_of_block hlow (Nat.le_of_lt_succ c.isLt)), exec_rsvd⟩

end Sys2Proof.Machine
end

section
/-! PROOFS. The statement about completion (60_exceptions.md): no command word stops the stream. -/
namespace Sys2Proof.Machine

/-- 60_exceptions.md R100: every command answers a next state. -/
theorem exec_completes (i : Instr) (s : State) : ∃ t, exec i s = .next t := by
  obtain ⟨t, hnext, -⟩ := exec_pending i s s.pending
  exact ⟨t, hnext⟩

/-- Settles O14: every word decodes to a command, and every command completes. -/
theorem noCommandEverStopsTheStream : Obligations.NoCommandEverStopsTheStream :=
  fun c s => exec_completes (decodeWord c) s

end Sys2Proof.Machine
end

section
/-! PROOFS. What a command can do, said once for all commands: the inversion of `exec` from which the statements on
whole states, runs and fields are proved. -/
namespace Sys2Proof.Machine

/-- What a command can do: `Effect i s t` holds exactly when `exec i s` answers `t` (`effect_iff`). One rule for each
command, and one for each case of LATCH.H, CLK.H and MODE, with the condition it is chosen by. -/
inductive Effect : Instr → State → State → Prop
  | data (v : LogicLevel) (s : State) : Effect (.data v) s { s with data := v }
  | dataa (v : LogicLevel) (s : State) : Effect (.dataa v) s { s with data := v }
  | oe (v : LogicLevel) (s : State) : Effect (.oe v) s { s with outputEnable := v }
  | clkL (s : State) : Effect .clkL s { s with clock := .low }
  | rearm (s : State) : Effect .latchL s { s with latch := .low, cursor := (s.board.stationCount : Int) - 1 }
  | latched {s : State} (hlatch : s.latch = .high) : Effect .latchH s s
  | commit {s : State} (hlatch : s.latch = .low) : Effect .latchH s
      { s with
        latch := .high
        trace := s.trace ++
          commitEvents (s.board.pinMap.take s.board.stationCount) (s.stationState.take s.board.stationCount)
        pinLevel := writeLevels s.pinLevel
          (commitEvents (s.board.pinMap.take s.board.stationCount) (s.stationState.take s.board.stationCount)) }
  | clockOnly {s : State} (hq : ¬ (s.latch = .low ∧ s.outputEnable = .low)) :
      Effect .clkH s { s with clock := .high }
  | overrun {s : State} (hq : s.latch = .low ∧ s.outputEnable = .low) (hfull : s.cursor = -1) : Effect .clkH s
      { s with clock := .high, overrun := true, trace := s.trace ++ [.diag .cursorOverrun] }
  | capture {s : State} (hq : s.latch = .low ∧ s.outputEnable = .low) (hfull : s.cursor ≠ -1) : Effect .clkH s
      { s with clock := .high, cursor := s.cursor - 1,
               stationState := if 0 ≤ s.cursor then s.stationState.set s.cursor.toNat s.data else s.stationState }
  | modeAgain (sel : Selector) (m : PinMode) {s : State} (hdone : s.initDone = true) : Effect (.mode sel m) s s
  | modeFirst (sel : Selector) (m : PinMode) {s : State} (hdone : s.initDone = false) : Effect (.mode sel m) s
      { s with initDone := true, trace := s.trace ++ outputEvents s.board.pinMap,
               pinDir := writeOutputs s.pinDir s.board.pinMap }
  | wrxFive (v : LogicLevel) (s : State) :
      Effect (.wrxFive v) s { s with trace := s.trace ++ [.diag (.unrecognisedPin 5#3)] }
  | wrxSixSeven (sel : Selector) (v : LogicLevel) (s : State) :
      Effect (.wrxSixSeven sel v) s { s with trace := s.trace ++ [.diag (.unrecognisedPin sel)] }
  | read (v : BitVec 1) (sel : Selector) (s : State) :
      Effect (.read v sel) s { s with trace := s.trace ++ [.readResp .low] }
  | rsvd (c : CommandWord) (s : State) :
      Effect (.rsvd c) s { s with trace := s.trace ++ [.diag (.reservedCommand c)] }

/-- Each rule of `Effect` is an equation of `exec`. -/
theorem Effect.exec_eq {i : Instr} {s t : State} (h : Effect i s t) : exec i s = .next t := by
  cases h with
  | latched hlatch => exact exec_latchH_of_high hlatch
  | commit hlatch => exact exec_latchH_of_low hlatch
  | clockOnly hq => exact exec_clkH_of_not_qualifies hq
  | overrun hq hfull => exact exec_clkH_of_full hq hfull
  | capture hq hfull => exact exec_clkH_of_not_full hq hfull
  | modeAgain sel m hdone => exact exec_mode_of_done sel m hdone
  | modeFirst sel m hdone => exact exec_mode_of_not_done sel m hdone
  | _ => rfl

/-- 60_exceptions.md R100: in every state a rule of `Effect` applies to every command. -/
theorem exists_effect (i : Instr) (s : State) : ∃ t, Effect i s t := by
  cases i with
  | data v => exact ⟨_, .data v s⟩
  | dataa v => exact ⟨_, .dataa v s⟩
  | oe v => exact ⟨_, .oe v s⟩
  | clkL => exact ⟨_, .clkL s⟩
  | latchL => exact ⟨_, .rearm s⟩
  | latchH =>
    cases hlatch : s.latch
    · exact ⟨_, .commit hlatch⟩
    · exact ⟨_, .latched hlatch⟩
  | clkH =>
    by_cases hq : s.latch = .low ∧ s.outputEnable = .low
    · by_cases hfull : s.cursor = -1
      · exact ⟨_, .overrun hq hfull⟩
      · exact ⟨_, .capture hq hfull⟩
    · exact ⟨_, .clockOnly hq⟩
  | mode sel m =>
    cases hdone : s.initDone
    · exact ⟨_, .modeFirst sel m hdone⟩
    · exact ⟨_, .modeAgain sel m hdone⟩
  | wrxFive v => exact ⟨_, .wrxFive v s⟩
  | wrxSixSeven sel v => exact ⟨_, .wrxSixSeven sel v s⟩
  | read v sel => exact ⟨_, .read v sel s⟩
  | rsvd c => exact ⟨_, .rsvd c s⟩

theorem effect_iff {i : Instr} {s t : State} : Effect i s t ↔ exec i s = .next t := by
  refine ⟨Effect.exec_eq, fun h => ?_⟩
  obtain ⟨u, hu⟩ := exists_effect i s
  obtain rfl : u = t := Host.Outcome.next.inj (hu.exec_eq.symm.trans h)
  exact hu

/-- What every effect of a command does, the command answers. -/
theorem exec_of_effect {i : Instr} {s : State} {Q : State → Prop} (h : ∀ t, Effect i s t → Q t) :
    ∃ t, exec i s = .next t ∧ Q t := by
  obtain ⟨t, ht⟩ := exists_effect i s
  exact ⟨t, ht.exec_eq, h t ht⟩

/-! ## One field at a time -/

/-- 20_memory.md R52: no command changes the parameters. -/
theorem Effect.board_eq {i : Instr} {s t : State} (h : Effect i s t) : t.board = s.board := by
  cases h <;> rfl

/-- 10_state.md R36: every command keeps a well-formed state well formed. -/
theorem State.WF.exec {i : Instr} {s t : State} (hs : s.WF) (h : exec i s = .next t) : t.WF := by
  cases i with
  | data _ | dataa _ | oe _ | clkL => cases h; exact hs.congr rfl rfl rfl rfl rfl rfl
  | latchL =>
    have htop : -1 ≤ (s.board.stationCount : Int) - 1 := by omega
    cases h
    exact { hs with neg_one_le_cursor := htop, cursor_le_top := Int.le_refl _ }
  | latchH =>
    have hset : (s.setLatch .high).WF := hs.congr rfl rfl rfl rfl rfl rfl
    rw [exec_latchH] at h
    split at h <;> cases h
    · exact hset.commit
    · exact hset
  | clkH =>
    have hset : (s.setClock .high).WF := hs.congr rfl rfl rfl rfl rfl rfl
    cases h
    exact hset.sample
  | mode sel m =>
    rw [exec_mode] at h
    split at h <;> cases h
    · exact hs
    · exact hs.requestAllOutputs.congr rfl rfl rfl rfl rfl rfl
  | wrxFive _ | wrxSixSeven _ _ | rsvd _ => cases h; exact hs.diag _
  | read _ _ => cases h; exact hs.respond _

end Sys2Proof.Machine
end

section
/-! PROOFS. The statements about steps and runs (10_state.md section 9, 30_encoding.md section 1,
70_reset_and_hazards.md section 5): well-formed states, the stream of carrier bytes, and the stored level of CLOCK. -/
namespace Sys2Proof.Machine

/-! ## A step, by the stream of carrier bytes -/

theorem step_of_idle {s : State} (h : s.pending = []) : step s = .next s := by
  simp [step, State.fetch, h]

theorem step_of_decode {s : State} {i : Instr} {rest : List Byte} (h : decode s.pending = .ok (i, rest)) :
    step s = exec i (s.setPending rest) := by
  cases hp : s.pending with
  | nil => simp [hp, decode] at h
  | cons b bs =>
    rw [hp] at h
    simp [step, State.fetch, hp, h]

/-- 30_encoding.md R60: a byte that is no command word has a bit set above bit 5. -/
theorem extractLsb'_upper_eq_zero_iff (b : Byte) : b.extractLsb' 6 2 = 0#2 ↔ b.toNat < 64 := by
  have hb := b.isLt
  rw [← BitVec.toNat_inj, BitVec.extractLsb'_toNat, Nat.shiftRight_eq_div_pow]
  simp only [BitVec.toNat_ofNat]
  omega

theorem decode_cons_of_lt {b : Byte} (h : b.toNat < 64) (rest : List Byte) :
    decode (b :: rest) = .ok (decodeWord (b.extractLsb' 0 6), rest) := by
  simp [decode, decodeCarrier, (extractLsb'_upper_eq_zero_iff b).2 h]

theorem decode_carrierOfWord_cons (c : CommandWord) (rest : List Byte) :
    decode (carrierOfWord c :: rest) = .ok (decodeWord c, rest) := by
  simp [decode, decodeCarrier_carrierOfWord]

theorem step_of_not_command {s : State} {b : Byte} {rest : List Byte} (hp : s.pending = b :: rest)
    (h : 64 ≤ b.toNat) : step s = .refused (.notACommandWord b) := by
  have hb : b.extractLsb' 6 2 ≠ 0#2 := mt (extractLsb'_upper_eq_zero_iff b).1 (Nat.not_lt.2 h)
  simp [step, State.fetch, hp, decode, decodeCarrier, hb]

/-- What taking a byte off the stream keeps and every command keeps, a step keeps. -/
theorem step_keeps_of_effect {P : State → State → Prop} (hold : ∀ s, P s s)
    (cmd : ∀ s t i rest, Effect i (s.setPending rest) t → P s t) {s t : State} (h : step s = .next t) : P s t :=
  step_keeps hold (fun s t i rest he => cmd s t i rest (effect_iff.2 he)) h

theorem step_board_eq {s t : State} (h : step s = .next t) : t.board = s.board :=
  step_keeps_of_effect (P := fun s t => t.board = s.board) (fun _ => rfl) (fun _ _ _ _ he => he.board_eq) h

theorem State.WF.step {s t : State} (hs : s.WF) (h : step s = .next t) : t.WF :=
  step_keeps (P := fun s t => s.WF → t.WF) (fun _ => id) (fun _ _ _ rest he hs => (hs.setPending rest).exec he) h hs

theorem run_board_eq {n : Nat} {s t : State} (h : Sys2Proof.core.run n s = .next t) : t.board = s.board :=
  run_keeps (P := fun u => u.board = s.board) (fun _ _ hu hstep => (step_board_eq hstep).trans hu) n s t rfl h

theorem State.WF.run {n : Nat} {s t : State} (hs : s.WF) (h : Sys2Proof.core.run n s = .next t) : t.WF :=
  run_keeps (fun _ _ hu hstep => hu.step hstep) n s t hs h

/-- A command leaves the stream as it is (log 4). -/
theorem exec_pending_eq {i : Instr} {s t : State} (h : exec i s = .next t) : t.pending = s.pending := by
  obtain ⟨u, hu, -, hp⟩ := exec_pending i s []
  cases hu.symm.trans h
  exact hp

/-- 60_exceptions.md R100: on a stream of command words a step completes and leaves a stream of command words. -/
theorem step_completes {s : State} (h : ∀ b ∈ s.pending, b.toNat < 64) :
    ∃ t, step s = .next t ∧ ∀ b ∈ t.pending, b.toNat < 64 := by
  cases hp : s.pending with
  | nil => exact ⟨s, step_of_idle hp, h⟩
  | cons b rest =>
    rw [hp, List.forall_mem_cons] at h
    obtain ⟨hb, hrest⟩ := h
    have hstep := step_of_decode (hp ▸ decode_cons_of_lt hb rest)
    obtain ⟨t, ht⟩ := exec_completes (decodeWord (b.extractLsb' 0 6)) (s.setPending rest)
    exact ⟨t, hstep.trans ht, by rwa [exec_pending_eq ht]⟩

/-! ## The stored level of CLOCK -/

/-- 10_state.md R33: no command reads `clock`. What it answers from a state in which that level alone was replaced is
what it answers from the state itself, but for the level. -/
theorem Effect.setClock {i : Instr} {s t : State} (h : Effect i s t) (v : LogicLevel) :
    ∃ w, Effect i (s.setClock v) (t.setClock w) := by
  cases h with
  | clkL _ => exact ⟨.low, effect_iff.2 rfl⟩
  | latched hlatch => exact ⟨v, .latched hlatch⟩
  | commit hlatch => exact ⟨v, .commit (s := s.setClock v) hlatch⟩
  | clockOnly hq => exact ⟨.high, .clockOnly (s := s.setClock v) hq⟩
  | overrun hq hfull => exact ⟨.high, .overrun (s := s.setClock v) hq hfull⟩
  | capture hq hfull => exact ⟨.high, .capture (s := s.setClock v) hq hfull⟩
  | modeAgain sel m hdone => exact ⟨v, .modeAgain sel m hdone⟩
  | modeFirst sel m hdone => exact ⟨v, .modeFirst sel m (s := s.setClock v) hdone⟩
  | _ => exact ⟨v, effect_iff.2 rfl⟩

theorem step_setClock {s t : State} (h : step s = .next t) (v : LogicLevel) :
    ∃ w, step (s.setClock v) = .next (t.setClock w) := by
  rcases step_cases s with ⟨hp, e⟩ | ⟨b, rest, -, ⟨i, -, hdec, e⟩ | ⟨-, e⟩⟩
  · cases e.symm.trans h
    exact ⟨v, step_of_idle hp⟩
  · obtain ⟨w, hw⟩ := (effect_iff.2 (e.symm.trans h)).setClock v
    exact ⟨w, (step_of_decode (s := s.setClock v) hdec).trans hw.exec_eq⟩
  · cases e.symm.trans h

/-- A run of `n + 1` steps that completes is a step and a run of `n` steps. -/
theorem run_succ_eq_next {n : Nat} {s t : State} (h : Sys2Proof.core.run (n + 1) s = .next t) :
    ∃ u, step s = .next u ∧ Sys2Proof.core.run n u = .next t := by
  cases hu : step s with
  | next u => exact ⟨u, rfl, (run_succ hu).symm.trans h⟩
  | fault f => cases f
  | refused r =>
    simp only [Host.Core.run, show Sys2Proof.core.step s = step s from rfl, hu] at h
    cases h

theorem run_setClock {n : Nat} {s t : State} (h : Sys2Proof.core.run n s = .next t) (v : LogicLevel) :
    ∃ w, Sys2Proof.core.run n (s.setClock v) = .next (t.setClock w) := by
  induction n generalizing s v with
  | zero => cases h; exact ⟨v, rfl⟩
  | succ n ih =>
    obtain ⟨u, hstep, hrun⟩ := run_succ_eq_next h
    obtain ⟨w, hw⟩ := step_setClock hstep v
    obtain ⟨w', hw'⟩ := ih hrun w
    exact ⟨w', (run_succ hw).trans hw'⟩

/-! ## The obligations -/

/-- Settles O4: a step takes a byte off the stream and carries out a command, and both keep the state well formed. -/
theorem everyStepKeepsStatesWellFormed : Obligations.EveryStepKeepsStatesWellFormed :=
  fun _ _ hs h => hs.step h

/-- Settles O5: the state a run answers is well formed, which bounds the cursor. -/
theorem cursorStaysInRangeAlongEveryRun : Obligations.CursorStaysInRangeAlongEveryRun := fun _ _ _ hs h =>
  have ht := hs.run h
  ⟨ht.neg_one_le_cursor, ht.cursor_le_top, ht.stations_length, run_board_eq h⟩

/-- Settles O43, by induction on the steps: each answers the same but for `clock`. -/
theorem storedClockIsUnobservable : Obligations.StoredClockIsUnobservable := by
  intro n s t v h
  obtain ⟨w, hw⟩ := run_setClock h v
  exact ⟨t.setClock w, hw, rfl⟩

/-- Settles O6: no step changes the board. -/
theorem boardIsTheSameAlongEveryRun : Obligations.BoardIsTheSameAlongEveryRun :=
  fun _ _ _ h => run_board_eq h

/-- Settles O13, by induction on the words: a step carries out the first word's command, and no command looks at the
bytes that are left. -/
theorem stepsOnAWordStreamCarryOutItsCommands : Obligations.StepsOnAWordStreamCarryOutItsCommands := by
  intro ws rest
  induction ws with
  | nil => intro s h; rw [← show s.pending = rest from h]; rfl
  | cons c ws ih =>
    intro s h
    have hdec : decode s.pending = .ok (decodeWord c, ws.map carrierOfWord ++ rest) :=
      h ▸ decode_carrierOfWord_cons c _
    obtain ⟨t, ht, ht', -⟩ := exec_pending (decodeWord c) (s.setPending (ws.map carrierOfWord ++ rest)) rest
    have hrun : Sys2Proof.core.run (ws.length + 1) s = Sys2Proof.core.run ws.length t :=
      run_succ ((step_of_decode hdec).trans ht)
    exact (hrun.trans (ih t (exec_pending_eq ht))).trans (runCommands_cons ht').symm

/-- Settles O55, by induction on the steps: each completes and leaves command words only. -/
theorem noRunOfCommandWordsIsStopped : Obligations.NoRunOfCommandWordsIsStopped := by
  intro n
  induction n with
  | zero => exact fun s _ => ⟨s, rfl⟩
  | succ n ih =>
    intro s h
    obtain ⟨u, hstep, hu⟩ := step_completes h
    obtain ⟨t, ht⟩ := ih u hu
    exact ⟨t, (run_succ hstep).trans ht⟩

/-- Settles O2: by the definition of the reset state. -/
theorem machineStartsInTheResetStateOfTheOpenBoard : Obligations.MachineStartsInTheResetStateOfTheOpenBoard :=
  ⟨rfl, fun b => ⟨State.resetFor_board b, State.resetFor_pending b⟩⟩

/-- 10_state.md section 9: the reset state is well formed on every board. -/
theorem State.resetFor_wf (b : Board) : (State.resetFor b).WF where
  neg_one_le_cursor := by rw [State.resetFor_cursor]; omega
  cursor_le_top := Int.le_refl _
  stations_length := List.length_replicate
  pinLevel_canonical := PinTable.wf_nil
  pinDir_canonical := PinTable.wf_nil
  pinLevel_agrees := fun _ => rfl
  pinDir_agrees := fun _ => rfl

/-- Settles O3: on every board, and bytes presented do not matter. -/
theorem resetStateIsWellFormed : Obligations.ResetStateIsWellFormed :=
  ⟨fun b bs => (State.resetFor_wf b).setPending bs, State.resetFor_wf Config.board⟩

/-- Settles O11: the upper two bits of a byte are zero exactly below 0x40. -/
theorem carrierBytesAreWordsWithZeroUpperBits : Obligations.CarrierBytesAreWordsWithZeroUpperBits :=
  fun _ _ rest hp => ⟨fun hb => step_of_decode (hp ▸ decode_cons_of_lt hb rest), step_of_not_command hp⟩

/-- Settles O12: the two cases of a step that is not refused. -/
theorem stepRunsTheDecodedCommand : Obligations.StepRunsTheDecodedCommand :=
  ⟨fun _ _ _ => step_of_decode, fun _ => step_of_idle⟩

end Sys2Proof.Machine
end

section
/-! PROOFS. The statements about words and their commands (30_encoding.md sections 1 to 4) and about the assembler's
lines (section 6). -/
namespace Sys2Proof.Machine

/-! ## From a command to its word and back -/

/-- 30_encoding.md R65, R69: the word of a well-formed command decodes to that command. -/
theorem decodeWord_encode (i : Instr) (h : i.wellFormed = true) : decodeWord (encode i) = i := by
  cases i with
  | data v => exact Laws.RoundTrip.data v h
  | latchL => exact Laws.RoundTrip.latchL h
  | latchH => exact Laws.RoundTrip.latchH h
  | clkL => exact Laws.RoundTrip.clkL h
  | clkH => exact Laws.RoundTrip.clkH h
  | oe v => exact Laws.RoundTrip.oe v h
  | dataa v => exact Laws.RoundTrip.dataa v h
  | wrxFive v => exact Laws.RoundTrip.wrxFive v h
  | wrxSixSeven sel v => exact Laws.RoundTrip.wrxSixSeven sel v h
  | read v sel => exact Laws.RoundTrip.read v sel h
  | mode sel m => exact Laws.RoundTrip.mode sel m h
  | rsvd c => exact Laws.RoundTrip.rsvd c h

/-- The word of a READ or MODE call is the canonical word of its command (30_encoding.md R64). -/
theorem decodeWord_wordOfCall_read (ids : PinIds) (pin : PinNumber) :
    decodeWord (wordOfCall ids (.read pin)) = .read 0#1 (selOf ids pin) :=
  decodeWord_encode (.read 0#1 (selOf ids pin)) rfl

theorem decodeWord_wordOfCall_setMode (ids : PinIds) (pin : PinNumber) (m : PinMode) :
    decodeWord (wordOfCall ids (.setMode pin m)) = .mode (selOf ids pin) m :=
  decodeWord_encode (.mode (selOf ids pin) m) rfl

/-- 30_encoding.md R60: `op` stands in front of `v` and `sel`. -/
theorem opField_packWord (op : BitVec 2) (v : BitVec 1) (sel : Selector) : opField (packWord op v sel) = op := by
  revert op v sel; decide

/-- The word of a write call decodes by the pin's selector and the level (30_encoding.md R64, R65). -/
theorem decodeWord_wordOfCall_write (ids : PinIds) (pin : PinNumber) (v : LogicLevel) :
    decodeWord (wordOfCall ids (.write pin v)) = decodeWrite v (selOf ids pin) := by
  have hpack : ∀ sel : Selector, decodeWord (packWord 0b00#2 (bitOfLevel v) sel) = decodeWrite v sel := by
    cases v <;> decide
  exact hpack _

/-! ## Words as the table's arithmetic -/

/-- 30_encoding.md section 6: a word of the write rows is its selector plus 8 for the level High. -/
theorem packWord_write_eq (v : BitVec 1) (sel : Selector) :
    packWord 0b00#2 v sel = sel.setWidth 6 + 8#6 * v.setWidth 6 := by
  revert v sel; decide

theorem packWord_read_eq (sel : Selector) : packWord 0b01#2 0#1 sel = 0x10#6 + sel.setWidth 6 := by
  revert sel; decide

theorem packWord_mode_eq (v : BitVec 1) (sel : Selector) :
    packWord 0b10#2 v sel = 0x20#6 + 8#6 * v.setWidth 6 + sel.setWidth 6 := by
  revert v sel; decide

/-! ## The obligations -/

/-- Settles O9: the carrier byte keeps the word, and the word of a well-formed command decodes to it. -/
theorem decodeOfEncodeIsTheCommand : Obligations.DecodeOfEncodeIsTheCommand := by
  intro i rest h
  rw [encodeCarrier, decode_carrierOfWord_cons, decodeWord_encode i h]

/-- Settles O19: the words of each expansion; a bit of FRAME has the three words of its SHIFT. -/
theorem pseudoInstructionsExpandToTheirWords : Obligations.PseudoInstructionsExpandToTheirWords := by
  have hshift : ∀ v, wordsOfLine (.shift v) = [0x00#6 + 8#6 * (bitOfLevel v).setWidth 6, 0x02#6, 0x0A#6] :=
    fun v => congrArg (· :: [0x02#6, 0x0A#6]) (packWord_write_eq (bitOfLevel v) 0#3)
  have hframe : ∀ bits, wordsOfLine (.frame bits) =
      wordsOfLine .beginSequence ++ bits.flatMap (fun v => wordsOfLine (.shift v)) ++ wordsOfLine .commit := by
    intro bits
    simp [wordsOfLine, frameCommands, List.map_flatMap]
  refine ⟨rfl, hshift, rfl, rfl, rfl, rfl, rfl, fun bits => ⟨hframe bits, ?length⟩⟩
  have hthree : (fun v => (wordsOfLine (.shift v)).length) = fun _ => 3 := rfl
  rw [hframe, List.length_append, List.length_append, List.length_flatMap, hthree, List.map_const',
    List.sum_replicate_nat]
  simp only [wordsOfLine, List.length_singleton]
  omega

/-- Settles O8: the words are given, and each decodes by computation. -/
theorem specWordsDecodeToTheirCommands : Obligations.SpecWordsDecodeToTheirCommands :=
  ⟨rfl, rfl, rfl, rfl, rfl, rfl, rfl, rfl, rfl, rfl, rfl, rfl, rfl⟩

/-- Settles O10: there are 64 words, and each is computed. -/
theorem encodeOfDecodeIsTheWord : Obligations.EncodeOfDecodeIsTheWord := by
  unfold Obligations.EncodeOfDecodeIsTheWord
  decide

/-- Settles O16: a write decodes by its pin's selector; no call packs the reserved `op`. -/
theorem callsBecomeTheirCommandsAndNeverAReservedWord : Obligations.CallsBecomeTheirCommandsAndNeverAReservedWord := by
  refine ⟨fun ids v => ?levels, fun ids => ?edges, fun ids pin v hpin => ?unrecognised,
    fun ids pin m => ⟨decodeWord_wordOfCall_read ids pin, decodeWord_wordOfCall_setMode ids pin m⟩,
    fun ids call => ?op⟩
  case levels =>
    simp only [decodeWord_wordOfCall_write, selOf_data, selOf_dataAlt, selOf_oe]
    exact ⟨rfl, rfl, rfl⟩
  case edges =>
    simp only [decodeWord_wordOfCall_write, selOf_latch, selOf_clock]
    exact ⟨rfl, rfl, rfl, rfl⟩
  case unrecognised => rw [decodeWord_wordOfCall_write, selOf_of_not_mem hpin]; rfl
  case op => cases call <;> rw [wordOfCall, opField_packWord] <;> decide

/-- Settles O18: each line has its command's word, which is the table's sum. -/
theorem assemblerLinesHaveTheirWords : Obligations.AssemblerLinesHaveTheirWords := by
  refine ⟨⟨rfl, rfl, rfl, rfl⟩, fun v => ⟨?data, ?oe, ?dataa⟩, fun sel v => ?wrx, fun sel => ?read,
    fun sel m => ?mode, fun _ => rfl⟩
  case data => exact congrArg ([·]) (packWord_write_eq (bitOfLevel v) 0#3)
  case oe => exact congrArg ([·]) (packWord_write_eq (bitOfLevel v) 3#3)
  case dataa => exact congrArg ([·]) (packWord_write_eq (bitOfLevel v) 4#3)
  case wrx => exact congrArg ([·]) (packWord_write_eq (bitOfLevel v) sel)
  case read => exact congrArg ([·]) (packWord_read_eq sel)
  case mode => exact congrArg ([·]) (packWord_mode_eq (bitOfMode m) sel)

end Sys2Proof.Machine
end

section
/-! PROOFS. The statements about who writes what (10_state.md sections 3 to 5, 20_memory.md sections 1 and 6,
60_exceptions.md, 70_reset_and_hazards.md section 5), and about commands repeated or exchanged. -/
namespace Sys2Proof.Machine

/-! ## The events a command can append -/

/-- 41_latch.md R86: a commit only writes pins. -/
theorem eq_pinWrite_of_mem_commitEvents {map : List PhysPin} {x : List LogicLevel} {e : Event}
    (h : e ∈ commitEvents map x) : ∃ p v, e = .pinWrite p v := by
  rw [commitEvents, ← List.map_uncurry_zip_eq_zipWith] at h
  obtain ⟨⟨p, v⟩, -, rfl⟩ := List.mem_map.1 h
  exact ⟨p, negate v, rfl⟩

/-- 41_latch.md R86: with `n` stations a commit needs the first `n` entries of the map only. -/
theorem commitEvents_take {map : List PhysPin} {x : List LogicLevel} {n : Nat} (h : x.length = n) :
    commitEvents (map.take n) (x.take n) = commitEvents map x := by
  rw [commitEvents, commitEvents, ← List.take_zipWith]
  exact List.take_of_length_le (by rw [List.length_zipWith]; omega)

/-- 43_other_read_mode.md R97: the initialisation only asks for directions. -/
theorem eq_pinDir_of_mem_outputEvents {ps : List PhysPin} {e : Event} (h : e ∈ outputEvents ps) :
    ∃ p, e = .pinDir p .output := by
  obtain ⟨p, -, rfl⟩ := List.mem_map.1 h
  exact ⟨p, rfl⟩

theorem countP_isDiag_commitEvents (map : List PhysPin) (x : List LogicLevel) :
    (commitEvents map x).countP Event.isDiag = 0 :=
  List.countP_eq_zero.2 fun e he => by
    obtain ⟨p, v, rfl⟩ := eq_pinWrite_of_mem_commitEvents he
    exact Bool.false_ne_true

theorem countP_isDiag_outputEvents (ps : List PhysPin) : (outputEvents ps).countP Event.isDiag = 0 :=
  List.countP_eq_zero.2 fun e he => by
    obtain ⟨p, rfl⟩ := eq_pinDir_of_mem_outputEvents he
    exact Bool.false_ne_true

theorem any_isReservedCommand_commitEvents (map : List PhysPin) (x : List LogicLevel) :
    (commitEvents map x).any Event.isReservedCommand = false :=
  List.any_eq_false.2 fun e he => by
    obtain ⟨p, v, rfl⟩ := eq_pinWrite_of_mem_commitEvents he
    exact Bool.false_ne_true

theorem any_isReservedCommand_outputEvents (ps : List PhysPin) :
    (outputEvents ps).any Event.isReservedCommand = false :=
  List.any_eq_false.2 fun e he => by
    obtain ⟨p, rfl⟩ := eq_pinDir_of_mem_outputEvents he
    exact Bool.false_ne_true

/-- 60_exceptions.md section 3 (d): a command appends events, at most one of them a diagnostic. -/
theorem Effect.trace_eq {i : Instr} {s t : State} (h : Effect i s t) :
    ∃ es, t.trace = s.trace ++ es ∧ es.countP Event.isDiag ≤ 1 := by
  cases h with
  | commit _ => exact ⟨_, rfl, Nat.le_trans (Nat.le_of_eq (countP_isDiag_commitEvents _ _)) (Nat.zero_le 1)⟩
  | modeFirst _ _ _ => exact ⟨_, rfl, Nat.le_trans (Nat.le_of_eq (countP_isDiag_outputEvents _)) (Nat.zero_le 1)⟩
  | overrun _ _ | wrxFive _ _ | wrxSixSeven _ _ _ | read _ _ _ | rsvd _ _ => exact ⟨_, rfl, List.countP_le_length⟩
  | _ => exact ⟨[], (List.append_nil _).symm, Nat.zero_le 1⟩

/-! ## The fields of the state -/

/-- 10_state.md section 3: a station that differs after a command is the one at the cursor, captured from `data`. -/
theorem Effect.station_of_ne {i : Instr} {s t : State} (h : Effect i s t) (hs : s.WF) {k : Nat}
    (hk : t.stationState[k]? ≠ s.stationState[k]?) :
    i = .clkH ∧ s.latch = .low ∧ s.outputEnable = .low ∧ s.cursor = (k : Int) ∧
      t.stationState[k]? = some s.data := by
  cases h with
  | capture hq hfull =>
    refine ⟨rfl, hq.1, hq.2, ?_⟩
    simp only [if_pos (hs.cursor_nonneg hfull)] at hk ⊢
    have hlen := hs.stations_length
    have hlt : k < s.board.stationCount := by
      refine Nat.lt_of_not_le fun hge => hk ?_
      rw [List.getElem?_eq_none (by rw [List.length_set]; omega), List.getElem?_eq_none (by omega)]
    rw [hs.captured_getElem? hfull hlt] at hk ⊢
    by_cases hcur : (k : Int) = s.cursor
    · exact ⟨hcur.symm, if_pos hcur⟩
    · exact absurd (if_neg hcur) hk
  | _ => exact absurd rfl hk

theorem Effect.stations_length {i : Instr} {s t : State} (h : Effect i s t) :
    t.stationState.length = s.stationState.length := by
  cases h with
  | capture _ _ => by_cases h0 : 0 ≤ s.cursor <;> simp [h0]
  | _ => rfl

/-- 10_state.md R27: only MODE reads or writes `initDone`. What another command answers from a state in which the flag
alone was replaced is what it answers from the state itself, with the flag replaced. -/
theorem Effect.setInitDone {i : Instr} {s t : State} (h : Effect i s t) (hi : ∀ sel m, i ≠ .mode sel m) (f : Bool) :
    Effect i (s.setInitDone f) (t.setInitDone f) := by
  cases h with
  | latched hlatch => exact .latched hlatch
  | commit hlatch => exact .commit (s := s.setInitDone f) hlatch
  | clockOnly hq => exact .clockOnly (s := s.setInitDone f) hq
  | overrun hq hfull => exact .overrun (s := s.setInitDone f) hq hfull
  | capture hq hfull => exact .capture (s := s.setInitDone f) hq hfull
  | modeAgain sel m _ | modeFirst sel m _ => exact absurd rfl (hi sel m)
  | _ => exact effect_iff.2 rfl

/-- 20_memory.md section 1: a pin whose level differs after a command was written by a commit. -/
theorem Effect.pinLevel_of_ne {i : Instr} {s t : State} (h : Effect i s t) {p : PhysPin}
    (hp : t.pinLevel.read p ≠ s.pinLevel.read p) :
    i = .latchH ∧ s.latch = .low ∧ p ∈ s.board.pinMap.take s.board.stationCount := by
  cases h with
  | commit hlatch =>
    refine ⟨rfl, hlatch, Classical.byContradiction fun hmem => hp ?_⟩
    rw [writeLevels_read, lastLevel_commitEvents_of_not_mem hmem, Option.none_or]
  | _ => exact absurd rfl hp

/-- 20_memory.md section 1: a pin whose direction differs after a command was asked to be an output by the first
MODE. -/
theorem Effect.pinDir_of_ne {i : Instr} {s t : State} (h : Effect i s t) {p : PhysPin}
    (hp : t.pinDir.read p ≠ s.pinDir.read p) :
    (∃ sel m, i = .mode sel m) ∧ s.initDone = false ∧ p ∈ s.board.pinMap ∧
      t.pinDir.read p = some .output := by
  cases h with
  | modeFirst sel m hdone =>
    by_cases hmem : p ∈ s.board.pinMap
    · exact ⟨⟨sel, m, rfl⟩, hdone, hmem, writeOutputs_read_of_mem hmem _⟩
    · exact absurd (writeOutputs_read_of_not_mem hmem _) hp
  | _ => exact absurd rfl hp

/-- 70_reset_and_hazards.md R140: the commands that make a run go wrong, and that it stays so. -/
theorem Effect.goneWrong_iff {i : Instr} {s t : State} (h : Effect i s t) :
    t.goneWrong = true ↔ s.goneWrong = true ∨
      (i = .clkH ∧ s.latch = .low ∧ s.outputEnable = .low ∧ s.cursor = -1) ∨ ∃ c, i = .rsvd c := by
  cases h with
  | commit _ => simp [State.goneWrong, any_isReservedCommand_commitEvents]
  | modeFirst _ _ _ => simp [State.goneWrong, any_isReservedCommand_outputEvents]
  | clockOnly hq => simp [State.goneWrong, ← and_assoc, hq]
  | overrun hq hfull => simp [State.goneWrong, hq, hfull]
  | capture _ hfull => simp [State.goneWrong, hfull]
  | _ => simp [State.goneWrong, Event.isReservedCommand]

/-- 42_clock.md R91: a qualifying command with the cursor at station `k` stores `data` there. -/
theorem exec_clkH_of_cursor {s : State} {k : Nat} (hq : s.latch = .low ∧ s.outputEnable = .low) (hc : s.cursor = k) :
    exec .clkH s = .next
      { s with clock := .high, cursor := (k : Int) - 1, stationState := s.stationState.set k s.data } := by
  rw [exec_clkH_of_not_full hq (by omega), if_pos (by omega), hc, Int.toNat_natCast]

/-! ## The obligations -/

/-- Settles O33: only a capture writes a station, and it writes the one at the cursor. -/
theorem stationsAreWrittenByACaptureOnly : Obligations.StationsAreWrittenByACaptureOnly :=
  fun _ _ hs => exec_of_effect fun _ h => ⟨h.stations_length, fun _ => h.station_of_ne hs⟩

/-- Settles O34, by the effects: the rule of LATCH.L and the capture's name a cursor, and CLK.H has three. -/
theorem cursorMovesByRearmAndCaptureOnly : Obligations.CursorMovesByRearmAndCaptureOnly := by
  refine fun i s => exec_of_effect fun t h => ?_
  cases h with
  | clockOnly hq => simp [← and_assoc, hq]
  | overrun _ hfull => simp [hfull]
  | capture hq hfull => simp [hq, hfull]
  | _ => rfl

/-- Settles O35: MODE leaves the flag true in both its cases, and no other rule names it. -/
theorem initDoneIsSetByModeAndReadByModeOnly : Obligations.InitDoneIsSetByModeAndReadByModeOnly := by
  refine ⟨State.resetFor_initDone, fun i s => exec_of_effect fun t h => ?_, fun i s f hi => ?_⟩
  · cases h with
    | modeAgain _ _ hdone => exact hdone
    | _ => rfl
  · exact exec_of_effect fun t h => (h.setInitDone hi f).exec_eq

/-- Settles O38: a commit writes the first `N` entries' levels, the first MODE the entries' directions. -/
theorem physicalPinsAreTouchedByCommitAndFirstModeOnly : Obligations.PhysicalPinsAreTouchedByCommitAndFirstModeOnly :=
  fun _ _ => exec_of_effect fun _ h => ⟨fun _ => h.pinLevel_of_ne, fun _ => h.pinDir_of_ne⟩

/-- Settles O39: commits and initialisations append no diagnostic, the other commands at most one event. -/
theorem oneCommandRecordsAtMostOneDiagnostic : Obligations.OneCommandRecordsAtMostOneDiagnostic := by
  intro i s
  obtain ⟨t, h⟩ := exists_effect i s
  obtain ⟨es, htrace, hcount⟩ := h.trace_eq
  exact ⟨t, es, h.exec_eq, htrace, hcount⟩

/-- Settles O40: `overrun` and a reserved word's diagnostic are what a run goes wrong by. -/
theorem runGoesWrongByOverrunOrReservedWordOnly : Obligations.RunGoesWrongByOverrunOrReservedWordOnly :=
  fun _ _ => exec_of_effect fun _ h => h.goneWrong_iff

/-- Settles O41: for each rule of the first execution, the rule that applies to the second. -/
theorem repeatedCommandsDoWhatTheTableSays : Obligations.RepeatedCommandsDoWhatTheTableSays := by
  refine ⟨fun i s hi => ?notClkH, fun s hq => ?notQualifying, fun s k hlatch hoe hc => ?capture,
    fun s hlatch hoe hc => ?overrun⟩
  case notClkH =>
    obtain ⟨t, h⟩ := exists_effect i s
    cases h with
    | clockOnly _ | overrun _ _ | capture _ _ => exact absurd rfl hi
    | latched hlatch => exact ⟨s, s, exec_latchH_of_high hlatch, exec_latchH_of_high hlatch, rfl⟩
    | commit hlatch => exact ⟨_, _, exec_latchH_of_low hlatch, exec_latchH_of_high rfl, rfl⟩
    | modeAgain sel m hdone => exact ⟨s, s, exec_mode_of_done sel m hdone, exec_mode_of_done sel m hdone, rfl⟩
    | modeFirst sel m hdone => exact ⟨_, _, exec_mode_of_not_done sel m hdone, exec_mode_of_done sel m rfl, rfl⟩
    | _ => exact ⟨_, _, rfl, rfl, rfl⟩
  case notQualifying =>
    have hq' : ¬ (s.latch = .low ∧ s.outputEnable = .low) := fun ⟨hlatch, hoe⟩ => by simp [hlatch, hoe] at hq
    exact ⟨_, exec_clkH_of_not_qualifies hq', exec_clkH_of_not_qualifies (s := s.setClock .high) hq'⟩
  case capture =>
    have hfirst := exec_clkH_of_cursor (k := k + 1) ⟨hlatch, hoe⟩ hc
    rw [Int.natCast_succ, Int.add_sub_cancel] at hfirst
    exact ⟨_, hfirst, rfl, rfl, exec_clkH_of_cursor ⟨hlatch, hoe⟩ rfl⟩
  case overrun =>
    rcases hc with hc | hc
    · have hfirst := exec_clkH_of_not_full ⟨hlatch, hoe⟩ (show s.cursor ≠ -1 by omega)
      exact ⟨_, hfirst, exec_clkH_of_full ⟨hlatch, hoe⟩ (show s.cursor - 1 = -1 by omega)⟩
    · exact ⟨_, exec_clkH_of_full ⟨hlatch, hoe⟩ hc, exec_clkH_of_full ⟨hlatch, hoe⟩ hc⟩

/-- Settles O42: the two registers are different fields, so either order answers the same state. -/
theorem dataAndOeCommandsCommute : Obligations.DataAndOeCommandsCommute := fun v w s =>
  ⟨runCommands_pair (exec_data v s) (exec_oe w _), runCommands_pair (exec_oe w s) (exec_data v _),
    runCommands_pair (exec_dataa v s) (exec_oe w _), runCommands_pair (exec_oe w s) (exec_dataa v _)⟩

end Sys2Proof.Machine
end

section
/-! PROOFS. The statements about what every step keeps (41_latch.md LATCH.H corner case (j), 43_other_read_mode.md MODE,
20_memory.md section 1), about shared pins, and about the real levels of pins (60_exceptions.md section 7). -/
namespace Sys2Proof.Machine

/-! ## What a command keeps while LATCH or OUTPUT_ENABLE stays High -/

/-- 41_latch.md LATCH.H corner case (j): with `latch` High only LATCH.L acts on anything that a commit reads or that a
capture writes. -/
theorem Effect.of_latch_high {i : Instr} {s t : State} (h : Effect i s t) (hi : i ≠ .latchL)
    (hlatch : s.latch = .high) :
    t.latch = .high ∧ t.stationState = s.stationState ∧ t.cursor = s.cursor ∧ t.overrun = s.overrun ∧
      t.pinLevel = s.pinLevel := by
  cases h with
  | rearm _ => exact absurd rfl hi
  | commit hlow | overrun hlow _ | capture hlow _ => simp [hlatch] at hlow
  | _ => exact ⟨hlatch, rfl, rfl, rfl, rfl⟩

/-- 95_test_vectors.md T4: with `outputEnable` High only OE 0 acts on anything that a capture writes, but for the
cursor. -/
theorem Effect.of_outputEnable_high {i : Instr} {s t : State} (h : Effect i s t) (hi : i ≠ .oe .low)
    (hoe : s.outputEnable = .high) :
    t.outputEnable = .high ∧ t.stationState = s.stationState ∧ t.overrun = s.overrun := by
  cases h with
  | oe v s =>
    cases v
    · exact absurd rfl hi
    · exact ⟨rfl, rfl, rfl⟩
  | overrun hq _ | capture hq _ => simp [hoe] at hq
  | _ => exact ⟨hoe, rfl, rfl⟩

/-! ## A repeated commit -/

/-- The events a commit of the state appends (41_latch.md R86). -/
def State.eventsOfCommit (s : State) : List Event :=
  commitEvents (s.board.pinMap.take s.board.stationCount) (s.stationState.take s.board.stationCount)

theorem State.commit_pinLevel (s : State) : s.commit.pinLevel = writeLevels s.pinLevel s.eventsOfCommit := by
  obtain ⟨es, e, rfl⟩ := s.commit_frame
  rw [e]; rfl

theorem State.commit_pinLevel_congr {s t : State} (hb : t.board = s.board) (hx : t.stationState = s.stationState)
    (hl : t.pinLevel = s.pinLevel) : t.commit.pinLevel = s.commit.pinLevel := by
  rw [State.commit_pinLevel, State.commit_pinLevel, State.eventsOfCommit, State.eventsOfCommit, hb, hx, hl]

/-- 41_latch.md LATCH.H corner case (j): a commit drives the levels that a commit before it has driven. -/
theorem writeLevels_twice_read (t : PinTable LogicLevel) (es : List Event) (p : PhysPin) :
    (writeLevels (writeLevels t es) es).read p = (writeLevels t es).read p := by
  simp only [writeLevels_read]
  cases lastLevel es p <;> rfl

/-- Once committed, a second commit would drive the levels the pins already have. -/
def State.CommitIsRedundant (s : State) : Prop :=
  s.latch = .high → ∀ p, s.commit.pinLevel.read p = s.pinLevel.read p

theorem State.commitIsRedundant_of_latch_low {s : State} (h : s.latch = .low) : s.CommitIsRedundant :=
  fun hlatch => by simp [h] at hlatch

theorem State.CommitIsRedundant.congr {s t : State} (h : s.CommitIsRedundant) (hlatch : t.latch = s.latch)
    (hb : t.board = s.board) (hx : t.stationState = s.stationState) (hl : t.pinLevel = s.pinLevel) :
    t.CommitIsRedundant := fun ht p => by
  rw [State.commit_pinLevel_congr hb hx hl, hl]
  exact h (hlatch ▸ ht) p

theorem Effect.keeps_commitIsRedundant {i : Instr} {s t : State} (h : Effect i s t) (hs : s.CommitIsRedundant) :
    t.CommitIsRedundant := by
  cases h with
  | rearm _ => exact State.commitIsRedundant_of_latch_low rfl
  | commit _ =>
    intro _ p
    rw [State.commit_pinLevel]
    exact writeLevels_twice_read s.pinLevel s.eventsOfCommit p
  | capture hq _ => exact State.commitIsRedundant_of_latch_low hq.1
  | _ => exact hs.congr rfl rfl rfl rfl

/-! ## The initialisation -/

/-- The direction requests in the trace are none before the first MODE and one for each map entry, in order, from then
on (43_other_read_mode.md R97). -/
def State.InitialisedOnce (s : State) : Prop :=
  s.trace.filter Event.isPinDir = if s.initDone then outputEvents s.board.pinMap else []

theorem filter_isPinDir_commitEvents (map : List PhysPin) (x : List LogicLevel) :
    (commitEvents map x).filter Event.isPinDir = [] :=
  List.filter_eq_nil_iff.2 fun e he => by
    obtain ⟨p, v, rfl⟩ := eq_pinWrite_of_mem_commitEvents he
    exact Bool.false_ne_true

theorem filter_isPinDir_outputEvents (ps : List PhysPin) :
    (outputEvents ps).filter Event.isPinDir = outputEvents ps :=
  List.filter_eq_self.2 fun e he => by
    obtain ⟨p, rfl⟩ := eq_pinDir_of_mem_outputEvents he
    rfl

/-- Events without a direction request leave the invariant as it is. -/
theorem State.InitialisedOnce.append {s t : State} {es : List Event} (h : s.InitialisedOnce) (hb : t.board = s.board)
    (hdone : t.initDone = s.initDone) (htrace : t.trace = s.trace ++ es) (hes : es.filter Event.isPinDir = []) :
    t.InitialisedOnce := by
  rw [State.InitialisedOnce, htrace, List.filter_append, hes, List.append_nil, hdone, hb]
  exact h

theorem Effect.keeps_initialisedOnce {i : Instr} {s t : State} (h : Effect i s t) (hs : s.InitialisedOnce) :
    t.InitialisedOnce := by
  cases h with
  | commit _ => exact hs.append rfl rfl rfl (filter_isPinDir_commitEvents _ _)
  | modeFirst _ _ hdone =>
    have hnone : s.trace.filter Event.isPinDir = [] := by simpa [State.InitialisedOnce, hdone] using hs
    rw [State.InitialisedOnce, List.filter_append, hnone, filter_isPinDir_outputEvents]
    rfl
  | overrun _ _ | wrxFive _ _ | wrxSixSeven _ _ _ | read _ _ _ | rsvd _ _ => exact hs.append rfl rfl rfl rfl
  | _ => exact hs

/-! ## The pins a commit drives -/

theorem Effect.keeps_drivesMappedPinsOnly {i : Instr} {s t : State} (h : Effect i s t) (hs : s.DrivesMappedPinsOnly) :
    t.DrivesMappedPinsOnly := by
  intro p hp
  rw [h.board_eq]
  by_cases hsame : t.pinLevel.read p = s.pinLevel.read p
  · exact hs p (hsame ▸ hp)
  · obtain ⟨-, -, hmem⟩ := h.pinLevel_of_ne hsame
    exact hmem

/-! ## The real levels -/

theorem lastLevel_cons (e : Event) (es : List Event) (p : PhysPin) :
    lastLevel (e :: es) p = (lastLevel es p).or (e.levelFor p) := by
  have hone : lastLevel [e] p = e.levelFor p := by cases h : e.levelFor p <;> simp [lastLevel, h]
  rw [← hone]
  exact lastLevel_append [e] es p

/-- An event that fails although every request succeeds is no pin write. -/
theorem EveryRequestSucceeds.levelFor_of_failed {world : List WorldEvent} (h : EveryRequestSucceeds world) {e : Event}
    (he : .issued e false ∈ world) (p : PhysPin) : e.levelFor p = none := by
  obtain ⟨-, hwrite⟩ := h e he
  cases e with
  | pinWrite _ _ => cases hwrite
  | pinDir _ _ | diag _ | readResp _ => rfl

theorem BackendOk.tail {map : List PhysPin} {w : WorldEvent} {world : List WorldEvent}
    (h : BackendOk map (w :: world)) : BackendOk map world :=
  ⟨fun e he => h.1 e (List.mem_cons_of_mem _ he), fun p v hp => h.2 p v (List.mem_cons_of_mem _ hp)⟩

/-- 60_exceptions.md R113: under BACKEND_OK a mapped pin has the level of the last write the block issued to it, and the
level it had before where there is none. -/
theorem realLevels_of_backendOk {map : List PhysPin} {world : List WorldEvent} (h : BackendOk map world) {p : PhysPin}
    (hp : p ∈ map) (levels : PhysPin → LogicLevel) :
    realLevels levels world p = (lastLevel (issuedEvents world) p).getD (levels p) := by
  induction world generalizing levels with
  | nil => rfl
  | cons w world ih =>
    cases w with
    | issued e ok =>
      have hissued : issuedEvents (.issued e ok :: world) = e :: issuedEvents world := rfl
      have hfirst : (if ok then (e.levelFor p).getD (levels p) else levels p) = (e.levelFor p).getD (levels p) := by
        cases ok
        · rw [h.1.levelFor_of_failed List.mem_cons_self]; rfl
        · rfl
      rw [realLevels, ih h.tail, hfirst, hissued, lastLevel_cons]
      cases lastLevel (issuedEvents world) p <;> rfl
    | drivenByOther q v =>
      have hq : q ≠ p := fun e => h.2 q v List.mem_cons_self (e ▸ hp)
      have hissued : issuedEvents (.drivenByOther q v :: world) = issuedEvents world := rfl
      rw [realLevels, ih h.tail, hissued, if_neg hq]

/-- A state that has driven its one mapped pin Low, for the need of each clause of BACKEND_OK: one station, the map
`[0]`. -/
def drivenLow : State :=
  { State.resetFor {} with trace := [.pinWrite 0 .low], pinLevel := [(0, .low)] }

theorem drivenLow_wf : drivenLow.WF :=
  { State.resetFor_wf {} with
    pinLevel_canonical := List.pairwise_singleton _ _
    pinLevel_agrees := fun p => by
      by_cases hp : p = 0 <;> simp [drivenLow, PinTable.read, lastLevel, Event.levelFor, hp, Ne.symm]
    pinDir_agrees := fun p => by simp [drivenLow, PinTable.read, dirAsked] }

theorem drivenLow_drivesMappedPinsOnly : drivenLow.DrivesMappedPinsOnly := by
  intro p hp
  obtain ⟨e, he, rfl⟩ := PinTable.mem_of_read hp
  obtain rfl : e = (0, .low) := List.mem_singleton.1 he
  exact List.mem_singleton_self 0

/-! ## Shared pins -/

/-- A list that meets a test at two places meets it at least twice. -/
theorem two_le_countP {α : Type} {f : α → Bool} {l : List α} {i j : Nat} {a b : α} (hij : i < j)
    (ha : l[i]? = some a) (hb : l[j]? = some b) (hfa : f a = true) (hfb : f b = true) : 2 ≤ l.countP f := by
  have hbefore : 0 < (l.take j).countP f :=
    List.countP_pos_iff.2 ⟨a, List.mem_of_getElem? ((List.getElem?_take_of_lt hij).trans ha), hfa⟩
  have hfrom : 0 < (l.drop j).countP f :=
    List.countP_pos_iff.2 ⟨b, List.mem_of_getElem? ((List.getElem?_drop (j := 0)).trans hb), hfb⟩
  rw [← List.take_append_drop j l, List.countP_append]
  omega

/-! ## The obligations -/

/-- Settles O47: only a commit changes what a second commit would do, and a second commit repeats the first. -/
theorem stepsKeepARepeatedCommitRedundant : Obligations.StepsKeepARepeatedCommitRedundant := fun _ _ hs h =>
  step_keeps_of_effect (P := fun s t => s.CommitIsRedundant → t.CommitIsRedundant) (fun _ => id)
    (fun _ _ _ _ he hs => he.keeps_commitIsRedundant (hs.congr rfl rfl rfl rfl)) h hs

/-- Settles O48: only the first MODE asks for directions, and it sets the flag. -/
theorem stepsKeepTheInitialisationDoneOnce : Obligations.StepsKeepTheInitialisationDoneOnce := fun _ _ hs h =>
  step_keeps_of_effect (P := fun s t => s.InitialisedOnce → t.InitialisedOnce) (fun _ => id)
    (fun _ _ _ _ he hs => he.keeps_initialisedOnce hs) h hs

/-- Settles O56: a pin whose level a command changes is one of the first `N` entries. -/
theorem stepsDriveMappedPinsOnly : Obligations.StepsDriveMappedPinsOnly := fun _ _ hs h =>
  step_keeps_of_effect (P := fun s t => s.DrivesMappedPinsOnly → t.DrivesMappedPinsOnly) (fun _ => id)
    (fun _ _ _ _ he hs => he.keeps_drivesMappedPinsOnly hs) h hs

/-- Settles O25: the last station on the pin decides its level, and the commit's events `i` and `j` both write it. -/
theorem laterStationWinsASharedPin : Obligations.LaterStationWinsASharedPin := by
  intro s i j p v hs hlow hij hj hpi hpj hlast hv
  obtain ⟨-, -, -, -, hcommits⟩ := latchHighCommitsOnARisingChangeOnly
  obtain ⟨levels, events, hexec, -, hstation, -⟩ := hcommits s hs hlow
  have hwrites : ∀ k, k < s.board.stationCount → s.board.pinMap[k]? = some p →
      ∃ e, events[k]? = some e ∧ (e.levelFor p).isSome = true := by
    intro k hk hpk
    obtain ⟨q, w, hq, -, he, -⟩ := hstation k hk
    obtain rfl : q = p := Option.some.inj (hq.symm.trans hpk)
    exact ⟨_, he, by simp [Event.levelFor]⟩
  obtain ⟨ei, hei, hi⟩ := hwrites i (Nat.lt_trans hij hj) hpi
  obtain ⟨ej, hej, hj'⟩ := hwrites j hj hpj
  obtain ⟨q, w, hq, hw, -, hlevel⟩ := hstation j hj
  obtain rfl : q = p := Option.some.inj (hq.symm.trans hpj)
  obtain rfl : w = v := Option.some.inj (hw.symm.trans hv)
  refine ⟨_, hexec, hlevel hlast, ?_⟩
  rw [List.drop_left]
  exact two_le_countP hij hei hej hi hj'

/-- Settles O54: under BACKEND_OK by induction on what happened; a failed write, or another driver after the write,
leaves the pin High where the block has driven it Low. -/
theorem pinLevelsAreRealUnderBackendOkOnly : Obligations.PinLevelsAreRealUnderBackendOkOnly := by
  refine ⟨fun s levels world hs hmapped hworld hok p v hv => ?sound, ?failed, ?driven⟩
  case sound =>
    have hp := List.mem_of_mem_take (hmapped p (by simp [hv]))
    have hlast : lastLevel s.trace p = some v := (hs.pinLevel_agrees p).symm.trans hv
    rw [realLevels_of_backendOk hok hp, hworld, hlast]
    rfl
  case failed =>
    refine ⟨drivenLow, fun _ => .high, [.issued (.pinWrite 0 .low) false], 0, .low, drivenLow_wf,
      drivenLow_drivesMappedPinsOnly, rfl, fun p v h => ?_, rfl, by decide⟩
    simp at h
  case driven =>
    refine ⟨drivenLow, fun _ => .high, [.issued (.pinWrite 0 .low) true, .drivenByOther 0 .high], 0, .low,
      drivenLow_wf, drivenLow_drivesMappedPinsOnly, rfl, fun e h => ?_, rfl, by decide⟩
    simp at h

/-- Settles O49: by the values of the reset state. -/
theorem resetStartsUninitialisedAndUncommitted : Obligations.ResetStartsUninitialisedAndUncommitted :=
  fun b => ⟨congrArg (List.filter Event.isPinDir) (State.resetFor_trace b), State.resetFor_initDone b,
    State.resetFor_latch b⟩

/-- Settles O57: the table of levels is empty at reset. -/
theorem resetDrivesNoPin : Obligations.ResetDrivesNoPin :=
  fun _ => ⟨fun _ => rfl, fun _ h => absurd rfl h⟩

end Sys2Proof.Machine
end

section
/-! PROOFS. The statements about sequences of commands (42_clock.md section "After k qualifying pulses",
70_reset_and_hazards.md sections 2 and 3, 95_test_vectors.md T1, T3, T4, L-1): what a shift sequence leaves in the
buffer, and what no sequence changes. -/
namespace Sys2Proof.Machine

/-! ## Lists of commands -/

theorem runCommands_append_of_next {as bs : List Instr} {s t : State} (h : runCommands as s = .next t) :
    runCommands (as ++ bs) s = runCommands bs t := by
  rw [runCommands_append, h]

/-- What each command of a list keeps, the list keeps; and it completes. -/
theorem runCommands_keeps {P : State → Prop} {is : List Instr}
    (h : ∀ i ∈ is, ∀ s t, P s → Effect i s t → P t) {s : State} (hs : P s) :
    ∃ t, runCommands is s = .next t ∧ P t := by
  induction is generalizing s with
  | nil => exact ⟨s, rfl, hs⟩
  | cons i is ih =>
    obtain ⟨hi, his⟩ := List.forall_mem_cons.1 h
    obtain ⟨u, hu⟩ := exists_effect i s
    rw [runCommands_cons hu.exec_eq]
    exact ih his (hi s u hs hu)

/-- 41_latch.md LATCH.H corner case (j): `t` has `latch` High, and what a capture or a commit writes is as in `s`. -/
def State.HeldWhileLatched (s t : State) : Prop :=
  t.latch = .high ∧ t.stationState = s.stationState ∧ t.cursor = s.cursor ∧ t.overrun = s.overrun ∧
    t.pinLevel = s.pinLevel

theorem State.HeldWhileLatched.effect {s t u : State} {i : Instr} (h : s.HeldWhileLatched t) (he : Effect i t u)
    (hi : i ≠ .latchL) : s.HeldWhileLatched u := by
  obtain ⟨hlatch, hx, hc, ho, hl⟩ := h
  obtain ⟨hlatch', hx', hc', ho', hl'⟩ := he.of_latch_high hi hlatch
  exact ⟨hlatch', hx'.trans hx, hc'.trans hc, ho'.trans ho, hl'.trans hl⟩

/-- 95_test_vectors.md T4: `t` has `outputEnable` High, and the buffer and `overrun` are as in `s`. -/
def State.HeldWhileDisabled (s t : State) : Prop :=
  t.outputEnable = .high ∧ t.stationState = s.stationState ∧ t.overrun = s.overrun

theorem State.HeldWhileDisabled.effect {s t u : State} {i : Instr} (h : s.HeldWhileDisabled t) (he : Effect i t u)
    (hi : i ≠ .oe .low) : s.HeldWhileDisabled u := by
  obtain ⟨hoe, hx, ho⟩ := h
  obtain ⟨hoe', hx', ho'⟩ := he.of_outputEnable_high hi hoe
  exact ⟨hoe', hx'.trans hx, ho'.trans ho⟩

/-! ## The buffer of a shift sequence -/

/-- The buffer `x` after `bits` were shifted in from station `n - 1` downwards, the first bit into station `n - 1`
(42_clock.md R94). -/
def shiftedIn (x : List LogicLevel) (n : Nat) (bits : List LogicLevel) : List LogicLevel :=
  x.take (n - bits.length) ++ bits.reverse ++ x.drop n

theorem shiftedIn_nil (x : List LogicLevel) (n : Nat) : shiftedIn x n [] = x := by
  simp [shiftedIn]

/-- Shifting in one bit and then the others is shifting in all of them. -/
theorem shiftedIn_set {x : List LogicLevel} {n : Nat} (hn : n < x.length) (b : LogicLevel) (bits : List LogicLevel) :
    shiftedIn (x.set n b) n bits = shiftedIn x (n + 1) (b :: bits) := by
  have htake : (x.set n b).take (n - bits.length) = x.take (n - bits.length) :=
    List.take_set_of_le (Nat.sub_le _ _)
  have hdrop : (x.set n b).drop n = b :: x.drop (n + 1) := by
    rw [List.drop_eq_getElem_cons (by simpa using hn), List.getElem_set_self, List.drop_set_of_lt (Nat.lt_succ_self n)]
  simp [shiftedIn, htake, hdrop, Nat.add_sub_add_right]

/-- A whole buffer shifted in is the bits, the last one in station 0. -/
theorem shiftedIn_full {x bits : List LogicLevel} (h : bits.length = x.length) :
    shiftedIn x x.length bits = bits.reverse := by
  simp [shiftedIn, h]

/-- 42_clock.md R94: the `j`-th bit stands `j` stations below the start. -/
theorem shiftedIn_getElem?_bit {x bits : List LogicLevel} {n j : Nat} (hn : n ≤ x.length) (hlen : bits.length ≤ n)
    (hj : 1 ≤ j) (hj' : j ≤ bits.length) : (shiftedIn x n bits)[n - j]? = bits[j - 1]? := by
  have htake : (x.take (n - bits.length)).length = n - bits.length := by
    rw [List.length_take]; omega
  rw [shiftedIn, List.append_assoc, List.getElem?_append_right (by omega), htake,
    List.getElem?_append_left (by rw [List.length_reverse]; omega), List.getElem?_reverse (by omega)]
  congr 1
  omega

/-- 42_clock.md R94: the stations that no bit reached are as before. -/
theorem shiftedIn_getElem?_below {x bits : List LogicLevel} {n i : Nat} (hn : n ≤ x.length)
    (hi : i < n - bits.length) : (shiftedIn x n bits)[i]? = x[i]? := by
  rw [shiftedIn, List.append_assoc, List.getElem?_append_left (by rw [List.length_take]; omega),
    List.getElem?_take_of_lt hi]

/-! ## The commands of a shift sequence -/

/-- A command that is no LATCH command and no qualifying CLK.H samples no bit and leaves the shift sequence where it
is. -/
theorem Effect.samples_nothing {i : Instr} {s t : State} (h : Effect i s t) (hL : i ≠ .latchL) (hH : i ≠ .latchH)
    (hq : i = .clkH → s.outputEnable ≠ .low) (is : List Instr) :
    t.latch = s.latch ∧ t.cursor = s.cursor ∧ t.stationState = s.stationState ∧ t.overrun = s.overrun ∧
      sampledBits (i :: is) s.data s.outputEnable = sampledBits is t.data t.outputEnable := by
  cases h with
  | rearm _ => exact absurd rfl hL
  | latched _ | commit _ => exact absurd rfl hH
  | overrun hlow _ | capture hlow _ => exact absurd hlow.2 (hq rfl)
  | clockOnly _ => exact ⟨rfl, rfl, rfl, rfl, if_neg (hq rfl)⟩
  | _ => exact ⟨rfl, rfl, rfl, rfl, rfl⟩

/-- 42_clock.md R94, from the middle of a shift sequence on: with `n` stations left, commands that sample at most `n`
bits shift these in. -/
theorem runCommands_shiftedIn {is : List Instr} {s : State} {n : Nat} (hL : .latchL ∉ is) (hH : .latchH ∉ is)
    (hlatch : s.latch = .low) (hc : s.cursor = (n : Int) - 1) (hn : n ≤ s.stationState.length)
    (hlen : (sampledBits is s.data s.outputEnable).length ≤ n) :
    ∃ t, runCommands is s = .next t ∧
      t.cursor = (n : Int) - 1 - (sampledBits is s.data s.outputEnable).length ∧
      t.stationState = shiftedIn s.stationState n (sampledBits is s.data s.outputEnable) ∧ t.overrun = s.overrun := by
  induction is generalizing s n with
  | nil => exact ⟨s, rfl, by simp [hc, sampledBits], (shiftedIn_nil _ _).symm, rfl⟩
  | cons i is ih =>
    simp only [List.mem_cons, not_or] at hL hH
    by_cases hq : i = .clkH ∧ s.outputEnable = .low
    · obtain ⟨rfl, hoe⟩ := hq
      have hbits : sampledBits (.clkH :: is) s.data s.outputEnable = s.data :: sampledBits is s.data s.outputEnable :=
        if_pos hoe
      rw [hbits] at hlen ⊢
      obtain ⟨n, rfl⟩ : ∃ k, n = k + 1 := Nat.exists_eq_add_one.2 (Nat.lt_of_lt_of_le (Nat.succ_pos _) hlen)
      rw [runCommands_cons (exec_clkH_of_cursor (k := n) ⟨hlatch, hoe⟩ (by omega))]
      obtain ⟨t, hrun, hcursor, hstations, hoverrun⟩ := ih (n := n) hL.2 hH.2
        (s := { s with clock := .high, cursor := (n : Int) - 1, stationState := s.stationState.set n s.data })
        hlatch rfl (by rw [List.length_set]; omega) (Nat.le_of_succ_le_succ hlen)
      refine ⟨t, hrun, ?_, hstations.trans (shiftedIn_set hn _ _), hoverrun⟩
      simp only [hcursor, List.length_cons]
      omega
    · obtain ⟨u, hu⟩ := exists_effect i s
      obtain ⟨hlatch', hc', hx, hoverrun', hbits⟩ :=
        hu.samples_nothing (Ne.symm hL.1) (Ne.symm hH.1) (fun hi hoe => hq ⟨hi, hoe⟩) is
      rw [hbits] at hlen ⊢
      rw [runCommands_cons hu.exec_eq, ← hx, ← hoverrun']
      exact ih hL.2 hH.2 (hlatch'.trans hlatch) (hc'.trans hc) (hx ▸ hn) hlen

/-- 95_test_vectors.md L-1: SHIFT of each bit, with OUTPUT_ENABLE Low and `n` stations left for at most `n` bits. -/
theorem runCommands_shifts {bits : List LogicLevel} {s : State} {n : Nat} (hlatch : s.latch = .low)
    (hoe : s.outputEnable = .low) (hc : s.cursor = (n : Int) - 1) (hn : n ≤ s.stationState.length)
    (hlen : bits.length ≤ n) : runCommands (bits.flatMap shiftCommands) s = .next
      { s with
        data := bits.getLast?.getD s.data
        clock := if bits = [] then s.clock else .high
        cursor := (n : Int) - 1 - bits.length
        stationState := shiftedIn s.stationState n bits } := by
  induction bits generalizing s n with
  | nil => simp [runCommands, shiftedIn_nil, ← hc]
  | cons b bits ih =>
    obtain ⟨n, rfl⟩ : ∃ k, n = k + 1 := Nat.exists_eq_add_one.2 (Nat.lt_of_lt_of_le (Nat.succ_pos _) hlen)
    have hclk := exec_clkH_of_cursor (s := { s with data := b, clock := .low }) (k := n) ⟨hlatch, hoe⟩
      (hc.trans (by omega))
    have hshift : runCommands (shiftCommands b) s = .next
        { s with data := b, clock := .high, cursor := (n : Int) - 1, stationState := s.stationState.set n b } := by
      rw [shiftCommands, pulseCommands, runCommands_cons (exec_data b s), runCommands_cons (exec_clkL _),
        runCommands_cons hclk, runCommands]
    have hn' : n ≤ (s.stationState.set n b).length := by rw [List.length_set]; omega
    have hcursor : (n : Int) - 1 - bits.length = ((n + 1 : Nat) : Int) - 1 - (b :: bits).length := by
      rw [List.length_cons]; omega
    have hdata : bits.getLast?.getD b = (b :: bits).getLast?.getD s.data := by simp [List.getLast?_cons]
    rw [List.flatMap_cons, runCommands_append_of_next hshift,
      ih (s := { s with
        data := b, clock := .high, cursor := (n : Int) - 1, stationState := s.stationState.set n b })
        hlatch hoe rfl hn' (Nat.le_of_succ_le_succ hlen)]
    simp [shiftedIn_set hn, hcursor, hdata]

/-- 95_test_vectors.md L-1 (T1): LATCH.L and a whole frame of bits. -/
theorem runCommands_frame {bits : List LogicLevel} {s : State} (hs : s.WF) (hoe : s.outputEnable = .low)
    (hlen : bits.length = s.board.stationCount) : runCommands (.latchL :: bits.flatMap shiftCommands) s = .next
      { s with
        latch := .low, data := bits.getLast?.getD s.data, clock := .high, cursor := -1
        stationState := bits.reverse } := by
  have hlen' : bits.length = s.stationState.length := hlen.trans hs.stations_length.symm
  have hne : bits ≠ [] := List.ne_nil_of_length_pos (hlen ▸ s.board.one_le_stationCount)
  have hcursor : (s.board.stationCount : Int) - 1 - bits.length = -1 := by omega
  rw [runCommands_cons (exec_latchL s),
    runCommands_shifts (s := { s with latch := .low, cursor := (s.board.stationCount : Int) - 1 })
      (n := s.board.stationCount) rfl hoe rfl (Nat.le_of_eq hs.stations_length.symm) (Nat.le_of_eq hlen),
    if_neg hne, hcursor]
  simp only [← hs.stations_length, shiftedIn_full hlen']

/-- 70_reset_and_hazards.md R122: the boot sequence, with the first MODE and a frame for every station. -/
theorem runCommands_boot (sel : Selector) (m : PinMode) {bits : List LogicLevel} {s : State} (hs : s.WF)
    (hdone : s.initDone = false) (hlen : bits.length = s.board.stationCount) :
    runCommands (bootCommands sel m bits) s = .next
      { s with
        latch := .high, outputEnable := .low, cursor := -1, stationState := bits.reverse
        data := bits.getLast?.getD s.data, clock := .high, initDone := true
        trace := s.trace ++ outputEvents s.board.pinMap ++ commitEvents s.board.pinMap bits.reverse
        pinDir := writeOutputs s.pinDir s.board.pinMap
        pinLevel := writeLevels s.pinLevel (commitEvents s.board.pinMap bits.reverse) } := by
  have hmode := exec_mode_of_not_done sel m hdone
  have hframe := runCommands_frame ((hs.exec hmode).exec (exec_oe .low _)) rfl hlen
  have hlen' : bits.reverse.length = s.board.stationCount := bits.length_reverse.trans hlen
  rw [bootCommands, frameCommands, ← List.cons_append, runCommands_cons hmode, runCommands_cons (exec_oe .low _),
    runCommands_append_of_next hframe, runCommands_cons (exec_latchH_of_low rfl), runCommands]
  simp only [commitEvents_take hlen']

/-- 41_latch.md R86: a commit leaves a level on every pin it has a station for. -/
theorem isSome_lastLevel_commitEvents {map : List PhysPin} {x : List LogicLevel} {p : PhysPin} (hp : p ∈ map)
    (hlen : map.length ≤ x.length) : (lastLevel (commitEvents map x) p).isSome = true := by
  induction map generalizing x with
  | nil => cases hp
  | cons q map ih =>
    cases x with
    | nil => cases hlen
    | cons w x =>
      rw [lastLevel_commitEvents_cons, Option.isSome_or, Bool.or_eq_true]
      rcases List.mem_cons.1 hp with rfl | hp
      · exact .inr (by rw [if_pos rfl]; rfl)
      · exact .inl (ih hp (Nat.le_of_succ_le_succ hlen))

/-! ## The obligations -/

/-- Settles O44: with `latch` High no command of the list acts on the four fields, and `latch` stays High. -/
theorem nothingIsCapturedWhileLatchIsHigh : Obligations.NothingIsCapturedWhileLatchIsHigh := by
  intro is s hlatch hL
  obtain ⟨t, hrun, -, hsame⟩ := runCommands_keeps (P := s.HeldWhileLatched)
    (fun i hi _ _ hu he => hu.effect he fun hiL => hL (hiL ▸ hi)) ⟨hlatch, rfl, rfl, rfl, rfl⟩
  exact ⟨t, hrun, hsame⟩

/-- Settles O45: with `outputEnable` High no command of the list acts on the two fields, and it stays High. -/
theorem nothingIsCapturedWhileOutputEnableIsHigh : Obligations.NothingIsCapturedWhileOutputEnableIsHigh := by
  intro is s hoe his
  obtain ⟨t, hrun, -, hsame⟩ := runCommands_keeps (P := s.HeldWhileDisabled)
    (fun i hi _ _ hu he => hu.effect he fun hiL => his (hiL ▸ hi)) ⟨hoe, rfl, rfl⟩
  exact ⟨t, hrun, hsame⟩

/-- Settles O46, by induction on the number of excess clock writes. -/
theorem excessClockWritesAreRejectedOneByOne : Obligations.ExcessClockWritesAreRejectedOneByOne := by
  intro k
  induction k with
  | zero =>
    intro s hlatch hoe hc
    exact runCommands_cons (exec_clkH_of_full ⟨hlatch, hoe⟩ hc)
  | succ k ih =>
    intro s hlatch hoe hc
    rw [List.replicate_succ, runCommands_cons (exec_clkH_of_full ⟨hlatch, hoe⟩ hc),
      ih { s with clock := .high, overrun := true, trace := s.trace ++ [.diag .cursorOverrun] } hlatch hoe hc]
    simp [List.replicate_succ]

/-- Settles O50: LATCH.L leaves all `N` stations to fill, and the bits sampled are shifted in. -/
theorem shiftSequenceFillsStationsFromTheTop : Obligations.ShiftSequenceFillsStationsFromTheTop := by
  rintro is s bits hs hL hH rfl hlen
  have hN := hs.stations_length
  obtain ⟨t, hrun, hcursor, hstations, hoverrun⟩ := runCommands_shiftedIn (n := s.board.stationCount)
    (s := { s with latch := .low, cursor := (s.board.stationCount : Int) - 1 }) hL hH rfl rfl
    (Nat.le_of_eq hN.symm) hlen
  refine ⟨t, (runCommands_cons (exec_latchL s)).trans hrun, hcursor, fun j hj hj' => ?bit, fun i hi => ?below,
    hoverrun⟩
  case bit => rw [hstations]; exact shiftedIn_getElem?_bit (Nat.le_of_eq hN.symm) hlen hj hj'
  case below => rw [hstations]; exact shiftedIn_getElem?_below (Nat.le_of_eq hN.symm) hi

/-- Settles O51: the buffer is the frame from its last bit to its first. -/
theorem wholeFrameLandsFirstBitInHighestStation : Obligations.WholeFrameLandsFirstBitInHighestStation := by
  intro bits s hs hoe hlen
  refine ⟨_, runCommands_frame hs hoe hlen, fun i hi => ?_, rfl, rfl, rfl⟩
  exact (List.getElem?_reverse (by omega)).trans (congrArg (bits[·]?) (by omega))

/-- Settles O52: the fields of the state after the boot sequence; the pins are read off the tables. -/
theorem bootSequenceEstablishesTheKnownState : Obligations.BootSequenceEstablishesTheKnownState := by
  intro sel m bits s hs hdone hoverrun hlen
  have hlast : some (bits.getLast?.getD s.data) = bits.getLast? := by
    have hne : bits ≠ [] := List.ne_nil_of_length_pos (hlen ▸ s.board.one_le_stationCount)
    rw [List.getLast?_eq_some_getLast hne, Option.getD_some]
  have hlen' : bits.reverse.length = s.board.stationCount := bits.length_reverse.trans hlen
  have hlevel : ∀ p ∈ s.board.pinMap.take s.board.stationCount,
      ((writeLevels s.pinLevel (commitEvents s.board.pinMap bits.reverse)).read p).isSome = true := fun p hp => by
    have hcommit := isSome_lastLevel_commitEvents (x := bits.reverse) hp
      (Nat.le_trans (List.length_take_le _ _) (Nat.le_of_eq hlen'.symm))
    rw [writeLevels_read, Option.isSome_or, ← commitEvents_take hlen', List.take_of_length_le (Nat.le_of_eq hlen'),
      hcommit, Bool.true_or]
  exact ⟨_, runCommands_boot sel m hs hdone hlen, rfl, rfl, rfl, rfl, hlast, rfl, rfl, hoverrun,
    fun _ hp => writeOutputs_read_of_mem hp _, hlevel, rfl⟩

/-- Settles O53: the buffer is committed from `latch` Low. -/
theorem lowThenHighDrivesThePatternAgain : Obligations.LowThenHighDrivesThePatternAgain := by
  intro s hs
  refine ⟨_, runCommands_pair (exec_latchL s) (exec_latchH_of_low rfl), rfl, ?_, rfl, rfl⟩
  simp only [commitEvents_take hs.stations_length]

end Sys2Proof.Machine
end
